-- ==== Sys2Proof/Word.lean ====
section
/-! DEFINITION. The types of the values the core works on: bytes, 16-bit words, the four-byte instruction word, the
condition names of a Jump, and the text the assembler reads. -/

namespace Sys2Proof

/-- `u8` of R8: a register id, a channel id, an opcode or a data byte (R73, R74). -/
abbrev Byte := BitVec 8

/-- `i16` of R8: the 16-bit pattern of a signed two's-complement value; its signed reading is `BitVec.toInt`. -/
abbrev Word := BitVec 16

/-- A character sequence of the assembler's source text (R85). -/
abbrev Text := List Char

/-- The instruction word of R70, four bytes `{opcode, data1, data2, data3}` with structural equality. -/
structure InstrWord where
  opcode : Byte
  data1 : Byte
  data2 : Byte
  data3 : Byte
  deriving DecidableEq, Repr

/-- The condition code of a Jump (R77): the seven recognised names, and the codes 7 to 255 that never jump (R81). -/
inductive Cond where
  | unconditional
  | equal
  | notEqual
  | above
  | aboveOrEqual
  | below
  | belowOrEqual
  /-- A code that is none of the seven (R81). -/
  | reserved (k : Byte)
  deriving DecidableEq, Repr

end Sys2Proof
end

