-- ==== Sys2Proof/Config.lean ====
section
/-! DEFINITION. What the implementation fixes, and the free values: constants with no body, so that a claim holds
whatever they are. -/

namespace Sys2Proof

/-- Which shift a count outside 0 to 15 belongs to: the first argument of `ShiftOutOfRange` (R142). -/
inductive ShiftOp where
  | left
  | right
  deriving DecidableEq, Repr

/-- One observable event of the event history (R63; D12, D28). -/
inductive Event where
  /-- `In(c, v)`: input channel `c` returned `v` to an executed Input. -/
  | input (c : Byte) (v : Word)
  /-- `Out(c, v)`: an executed Output handed `v` to output channel `c`. -/
  | output (c : Byte) (v : Word)
  /-- `HaltNotify`: an executed Halt called the subscriber. -/
  | haltNotify
  deriving DecidableEq, Repr

namespace Config

/-- The largest N of the program store (R6, R20): addresses 0 to 32767. -/
def programLimit : Nat := 32768

/-- FREE VALUE. `ShiftOutOfRange(op, va, vb)` (R142, D5; log 5): the result of a shift whose count is outside 0 to 15. -/
opaque shiftOutOfRange : ShiftOp → Word → Word → Word

/-- FREE VALUE. `InputOracle` (R55, D12; log 4): the value input channel `c` returns when the events so far are `h`. Every
executed Input lengthens the history, so each call is a draw of its own. -/
opaque inputOracle (h : List Event) (c : Byte) : Word

/-- FREE VALUE. The 16-bit target of a label whose address is above 32767, for which the spec states no encoding (log 18). -/
opaque farTarget (address : Nat) : Word

end Config

end Sys2Proof
end

