-- ==== Sys2Proof/Syntax.lean ====
section
/-! DEFINITION. The 17 instructions, one constructor per row of spec/opcode_table.json, with the operands their rules read
(R72). A byte the format marks ignored is no operand (R79; log 22). -/

namespace Sys2Proof

/-- The instructions of R78. `d` is a destination, `a`, `b` and `src` are source registers, `c` a channel id. -/
inductive Instr where
  /-- R110, opcode 0, format RI. -/
  | load (d : Byte) (imm : Word)
  /-- R111, opcode 1, format RC. -/
  | input (d c : Byte)
  /-- R112, opcode 2, format RC. -/
  | output (src c : Byte)
  /-- R121, opcode 3, format RRR. -/
  | add (d a b : Byte)
  /-- R122, opcode 4, format RRR. -/
  | subtract (d a b : Byte)
  /-- R123, opcode 5, format RRR. -/
  | multiply (d a b : Byte)
  /-- R124, opcode 6, format RRR. -/
  | divide (d a b : Byte)
  /-- R125, opcode 7, format RRR. -/
  | modulus (d a b : Byte)
  /-- R140, opcode 8, format RRR. -/
  | leftshift (d a b : Byte)
  /-- R141, opcode 9, format RRR. -/
  | rightshift (d a b : Byte)
  /-- R150, opcode 10, format RR. -/
  | compare (a b : Byte)
  /-- R152, opcode 11, format CT. -/
  | jump (k : Cond) (target : Word)
  /-- R160, opcode 12, format RRR. -/
  | logicaland (d a b : Byte)
  /-- R161, opcode 13, format RRR. -/
  | logicalor (d a b : Byte)
  /-- R162, opcode 14, format RR. -/
  | logicalnot (d a : Byte)
  /-- R163, opcode 15, format RRR. -/
  | logicalxor (d a b : Byte)
  /-- R170, opcode 255, format N. -/
  | halt
  deriving DecidableEq, Repr

end Sys2Proof
end

