-- ==== Sys2Proof/WellFormed.lean ====
section
/-! DEFINITION. Which instructions the encoding can spell. Register, channel, immediate and target fields hold every value of
their width (R21, R73 to R76), so the one condition is on a reserved condition code. -/

namespace Sys2Proof

/-- A reserved condition code is 7 to 255: 0 to 6 have names of their own (R77, R81). -/
def Cond.wellFormed : Cond → Bool
  | .reserved k => decide (7 ≤ k.toNat)
  | .unconditional | .equal | .notEqual | .above | .aboveOrEqual | .below | .belowOrEqual => true

/-- The instructions some word decodes to. -/
def Instr.wellFormed : Instr → Bool
  | .jump k _ => k.wellFormed
  | .load _ _ | .input _ _ | .output _ _ | .add _ _ _ | .subtract _ _ _ | .multiply _ _ _ | .divide _ _ _
  | .modulus _ _ _ | .leftshift _ _ _ | .rightshift _ _ _ | .compare _ _ | .logicaland _ _ _ | .logicalor _ _ _
  | .logicalnot _ _ | .logicalxor _ _ _ | .halt => true

end Sys2Proof
end

