-- ==== Sys2Proof/Decode.lean ====
section
/-! DEFINITION. The codec of 16-bit values, the instruction word's byte and bit forms, decoding and encoding of one word, and
the binary form of a program. -/

namespace Sys2Proof

/-- Assembly and load errors (R181): raised by the assembler or the binary-form decode, never by a step of the core. -/
inductive ToolError where
  /-- An operand is no integer of its range, or (with the whole line) the operand count is wrong (R92 to R94; D19). -/
  | malformedOperand (token : Text)
  /-- The first token of an instruction line is no mnemonic; carries the full original line (R91). -/
  | unrecognizedMnemonic (line : Text)
  /-- A jump's condition is none of the seven names (R95). -/
  | unrecognizedJumpCondition (token : Text)
  /-- A jump names a label that no line declares (R96). -/
  | unresolvedJumpLabel (label : Text)
  /-- A binary form whose length is not a multiple of 4 (R52). -/
  | instructionLength (length : Nat)
  /-- A label declared twice (R89; D18). -/
  | duplicateLabel (key : Text)
  deriving DecidableEq, Repr

/-- The codes of R181 (D24: labels, with no behaviour). -/
def ToolError.code : ToolError → Nat
  | .malformedOperand _ => 16
  | .unrecognizedMnemonic _ => 17
  | .unrecognizedJumpCondition _ => 18
  | .unresolvedJumpLabel _ => 19
  | .instructionLength _ => 20
  | .duplicateLabel _ => 21

/-- Why a word names no instruction: its opcode byte is 16 to 254 (R80). -/
inductive DecodeError where
  | invalidOpcode (opcode : Byte)
  deriving DecidableEq, Repr

/-- `join(h, l)` of R9: the high byte first, the 16-bit pattern read as signed. -/
def join (h l : Byte) : Word := h ++ l

/-- `split(v)` of R9: bits 15 to 8, then bits 7 to 0. -/
def split (v : Word) : Byte × Byte := (v.extractLsb' 8 8, v.extractLsb' 0 8)

/-- The word as the 32-bit number W of R7: the opcode in bits 31 to 24, data3 in bits 7 to 0. -/
def InstrWord.toBits (w : InstrWord) : BitVec 32 := w.opcode ++ w.data1 ++ w.data2 ++ w.data3

/-- The four bytes of the 32-bit number W (R7, R70). -/
def InstrWord.ofBits (bits : BitVec 32) : InstrWord :=
  ⟨bits.extractLsb' 24 8, bits.extractLsb' 16 8, bits.extractLsb' 8 8, bits.extractLsb' 0 8⟩

/-- The word's 4-byte buffer in `[opcode, data1, data2, data3]` order (R52, R70). -/
def InstrWord.toBytes (w : InstrWord) : List Byte := [w.opcode, w.data1, w.data2, w.data3]

/-- A word from a buffer of exactly four bytes; any other length fails (R70). -/
def InstrWord.ofBytes : List Byte → Option InstrWord
  | [b0, b1, b2, b3] => some ⟨b0, b1, b2, b3⟩
  | _ => none

/-- The condition code field `k` (R77); 7 to 255 are the reserved codes (R81). -/
def decodeCond (k : Byte) : Cond :=
  match k.toNat with
  | 0 => .unconditional
  | 1 => .equal
  | 2 => .notEqual
  | 3 => .above
  | 4 => .aboveOrEqual
  | 5 => .below
  | 6 => .belowOrEqual
  | _ => .reserved k

/-- The byte of a condition code (R77). -/
def encodeCond : Cond → Byte
  | .unconditional => 0
  | .equal => 1
  | .notEqual => 2
  | .above => 3
  | .aboveOrEqual => 4
  | .below => 5
  | .belowOrEqual => 6
  | .reserved k => k

/-- The instruction a word names (R72, R78), or the opcode byte that names none (R80). Ignored bytes are not read (R79). -/
def decode (w : InstrWord) : Except DecodeError Instr :=
  match w.opcode.toNat with
  | 0 => .ok (.load w.data1 (join w.data2 w.data3))
  | 1 => .ok (.input w.data1 w.data2)
  | 2 => .ok (.output w.data1 w.data2)
  | 3 => .ok (.add w.data1 w.data2 w.data3)
  | 4 => .ok (.subtract w.data1 w.data2 w.data3)
  | 5 => .ok (.multiply w.data1 w.data2 w.data3)
  | 6 => .ok (.divide w.data1 w.data2 w.data3)
  | 7 => .ok (.modulus w.data1 w.data2 w.data3)
  | 8 => .ok (.leftshift w.data1 w.data2 w.data3)
  | 9 => .ok (.rightshift w.data1 w.data2 w.data3)
  | 10 => .ok (.compare w.data1 w.data2)
  | 11 => .ok (.jump (decodeCond w.data1) (join w.data2 w.data3))
  | 12 => .ok (.logicaland w.data1 w.data2 w.data3)
  | 13 => .ok (.logicalor w.data1 w.data2 w.data3)
  | 14 => .ok (.logicalnot w.data1 w.data2)
  | 15 => .ok (.logicalxor w.data1 w.data2 w.data3)
  | 255 => .ok .halt
  | _ => .error (.invalidOpcode w.opcode)

/-- The word of an instruction (R72, R78), with 0 in every ignored byte (R83; D16). -/
def encode : Instr → InstrWord
  | .load d imm => ⟨0x00, d, (split imm).1, (split imm).2⟩
  | .input d c => ⟨0x01, d, c, 0⟩
  | .output src c => ⟨0x02, src, c, 0⟩
  | .add d a b => ⟨0x03, d, a, b⟩
  | .subtract d a b => ⟨0x04, d, a, b⟩
  | .multiply d a b => ⟨0x05, d, a, b⟩
  | .divide d a b => ⟨0x06, d, a, b⟩
  | .modulus d a b => ⟨0x07, d, a, b⟩
  | .leftshift d a b => ⟨0x08, d, a, b⟩
  | .rightshift d a b => ⟨0x09, d, a, b⟩
  | .compare a b => ⟨0x0A, a, b, 0⟩
  | .jump k target => ⟨0x0B, encodeCond k, (split target).1, (split target).2⟩
  | .logicaland d a b => ⟨0x0C, d, a, b⟩
  | .logicalor d a b => ⟨0x0D, d, a, b⟩
  | .logicalnot d a => ⟨0x0E, d, a, 0⟩
  | .logicalxor d a b => ⟨0x0F, d, a, b⟩
  | .halt => ⟨0xFF, 0, 0, 0⟩

/-- The words of a buffer taken four bytes at a time; nothing where bytes are left over (R52). -/
def wordsOfBytes : List Byte → Option (List InstrWord)
  | [] => some []
  | b0 :: b1 :: b2 :: b3 :: rest => (wordsOfBytes rest).map (⟨b0, b1, b2, b3⟩ :: ·)
  | _ => none

/-- The binary-form decode of R52: the length error, or one word for each group of four bytes. -/
def decodeProgram (bytes : List Byte) : Except ToolError (List InstrWord) :=
  match wordsOfBytes bytes with
  | some words => .ok words
  | none => .error (.instructionLength bytes.length)

/-- The binary form of a program: the words' bytes in address order (R52, R98). -/
def encodeProgram (words : List InstrWord) : List Byte := words.flatMap InstrWord.toBytes

/-- The instruction this decoder reads from a word given as spec/opcode_table.json numbers its bits: W of R7, its bits above
`nbits` zero. -/
def decodeTableWord (nbits w : Nat) : Option Instr :=
  match decode (InstrWord.ofBits (BitVec.ofNat 32 (w % 2 ^ nbits))) with
  | .ok i => some i
  | .error _ => none

end Sys2Proof
end

