-- ==== Sys2Proof/Machine/State.lean ====
section
/-! DEFINITION. The state of the machine: the architectural state of R20, and the model's records of the core's ports. Plain
data, so that two states can be compared. -/

namespace Sys2Proof.Machine

/-- Which channel table an error names (R180, code 4). -/
inductive Direction where
  | input
  | output
  deriving DecidableEq, Repr

/-- The execution errors of R180, which the spec's glossary calls faults. `Machine.raise` takes one: it goes to the step-result
port and the fault log and the core's state is kept (R183, R184, R190; log 2). No step of this model answers `.fault`: after
an error the host may issue another step at once. SAFE: no claim about a run counts what comes after its first error. -/
inductive Fault where
  /-- Raised by a step with no program or a program of no words (R32). Safe: taken as the spec says. -/
  | emptyProgram
  /-- Raised by a step whose counter indexes no loaded word (R33). Safe: taken as the spec says. -/
  | invalidAddress (counter : Word)
  /-- Raised by a step that fetched a word with opcode 16 to 254 (R80). Safe: taken as the spec says. -/
  | invalidOpcode (opcode : Byte)
  /-- Raised by Input or Output on an unbound channel (R111, R112). Safe: taken as the spec says. -/
  | invalidChannel (direction : Direction) (channel : Byte)
  /-- Raised by an instruction that reads a register never written since reset (R22; D1). Safe: no value is made up. -/
  | uninitializedRegister (register : Byte)
  /-- Raised by Divide and Modulus with divisor 0 (R124, R125; D2). Safe: no value is made up. -/
  | divideByZero
  deriving DecidableEq, Repr

/-- Why a step has no meaning. -/
inductive Refusal where
  /-- An instruction of the table without a meaning yet, by its mnemonic. Safe. No arm of this model raises it. -/
  | notModelled (mnemonic : String)
  /-- Raised where a producer, consumer or subscriber fails to return (R191; D29: "a model refuses such a run"). Safe. -/
  | callableFailed
  /-- Raised where a callable issues a request to the same core (R48, R216; D23: "a model refuses such a run"). Safe. -/
  | callbackReentered
  deriving DecidableEq, Repr

/-- The step-result port (R40 (7)). -/
inductive StepResult where
  | noOp
  | ok
  | error (e : Fault)
  deriving DecidableEq, Repr

/-- What a callable of the environment does when the core calls it (R55, R56, R28; log 6). -/
inductive Reply where
  /-- It returns; a producer returns `v`, and of a consumer or the subscriber the core takes no value. -/
  | returns (v : Word)
  /-- It does not return (R191). -/
  | fails
  /-- It issues a request to the same core (R48). -/
  | callsBack
  deriving DecidableEq, Repr

/-- The program store (R20, R29): no program, or the sequence of words at addresses 0 to N-1. -/
abbrev ProgramStore := Option (List InstrWord)

/-- The form of a program store: a loaded program has at most 32768 words (R20). The sequence itself is canonical: equal
stores are equal data. -/
def ProgramStore.wf : ProgramStore → Bool
  | none => true
  | some words => decide (words.length ≤ Config.programLimit)

/-- The architectural state of R20, then the model's records of the ports and of the environment (log 3, log 6). -/
structure State where
  /-- `x[0]` to `x[255]`: each Unwritten (`none`) or a value (R21, R22). -/
  regs : Vector (Option Word) 256
  /-- `CMP` (R24). -/
  cmp : Word
  /-- `IC` (R25). -/
  ic : Word
  /-- `HALTED` (R26). -/
  halted : Bool
  /-- `PROG` (R29). -/
  prog : ProgramStore
  /-- `InBound[0..255]` (R27). -/
  inBound : Vector Bool 256
  /-- `OutBound[0..255]` (R27). -/
  outBound : Vector Bool 256
  /-- `HaltSub` (R28). -/
  haltSub : Bool
  /-- The step-result port after the latest step; none before the first (R40 (7)). -/
  result : Option StepResult
  /-- The event history, oldest first (R63). -/
  events : List Event
  /-- The fault log, oldest first, which no step clears (R190). -/
  faultLog : List Fault
  /-- What the environment's callables do at the next calls, oldest first; after the last of them they return, a producer
  with the free value of `Config.inputOracle`. -/
  replies : List Reply
  deriving DecidableEq, Repr

/-- A step's answer. -/
abbrev Answer := Host.Outcome State Fault Refusal

/-- The state after reset at power-on: R49 and R211, `PROG` being `NoProgram` (D8); the records are empty (log 3, log 6). -/
def State.reset : State where
  regs := Vector.replicate 256 none
  cmp := 0
  ic := 0
  halted := false
  prog := none
  inBound := Vector.replicate 256 false
  outBound := Vector.replicate 256 false
  haltSub := false
  result := none
  events := []
  faultLog := []
  replies := []

end Sys2Proof.Machine
end

