-- ==== Sys2Proof/Machine/Ops.lean ====
section
/-! DEFINITION. The named operations on the state: registers, the program store, the channel tables, completing a step, taking
an execution error, calling a callable of the environment, and fetching the instruction at IC. -/

namespace Sys2Proof.Machine

/-- `wrap16(n)` of R8: the `i16` congruent to `n` modulo 65536. -/
def wrap16 (n : Int) : Word := BitVec.ofInt 16 n

/-- Register `i`: none while it is Unwritten (R22). Every byte names a register (R21, R73). -/
def State.reg (s : State) (i : Byte) : Option Word := s.regs[i.toNat]'i.isLt

/-- `x[i] <- v` (R22). -/
def State.setReg (s : State) (i : Byte) (v : Word) : State := { s with regs := s.regs.set i.toNat (some v) i.isLt }

/-- `CMP <- v` (R24). -/
def State.setCmp (s : State) (v : Word) : State := { s with cmp := v }

/-- `IC <- v` (R25). -/
def State.setIc (s : State) (v : Word) : State := { s with ic := v }

/-- `HALTED <- b` (R26). -/
def State.setHalted (s : State) (b : Bool) : State := { s with halted := b }

/-- A new program store (R29, R42). -/
def State.setProg (s : State) (p : ProgramStore) : State := { s with prog := p }

/-- Records one event at the end of the history (R63). -/
def State.addEvent (s : State) (e : Event) : State := { s with events := s.events ++ [e] }

/-- Puts a step's result on its port (R40 (7)). -/
def State.setResult (s : State) (r : StepResult) : State := { s with result := some r }

/-- Records an execution error at the end of the fault log (R190). -/
def State.addFault (s : State) (e : Fault) : State := { s with faultLog := s.faultLog ++ [e] }

/-- The environment's replies that are left (log 6). -/
def State.setReplies (s : State) (rs : List Reply) : State := { s with replies := rs }

/-- `InBound(c)` (R27). -/
def State.inputBound (s : State) (c : Byte) : Bool := s.inBound[c.toNat]'c.isLt

/-- `OutBound(c)` (R27). -/
def State.outputBound (s : State) (c : Byte) : Bool := s.outBound[c.toNat]'c.isLt

/-- `InBound(c) <- true` (R45). -/
def State.bindInput (s : State) (c : Byte) : State := { s with inBound := s.inBound.set c.toNat true c.isLt }

/-- `OutBound(c) <- true` (R45). -/
def State.bindOutput (s : State) (c : Byte) : State := { s with outBound := s.outBound.set c.toNat true c.isLt }

/-- `HaltSub <- b` (R28, R46). -/
def State.setHaltSub (s : State) (b : Bool) : State := { s with haltSub := b }

/-- TAKING AN EXECUTION ERROR, the one operation for all of them (R183, R184, R188, R190): the error goes to the step-result
port and the fault log; no architectural state changes, nothing vectors, IC keeps the failing instruction's address, and no
callable is called. The core has no return from it (R190). -/
def raise (e : Fault) (s : State) : Answer := .next ((s.setResult (.error e)).addFault e)

/-- The end of a step that raised nothing and took no jump: `IC <- wrap16(IC + 1)` (R35; D9), result Ok. -/
def complete (s : State) : Answer := .next ((s.setIc (wrap16 (s.ic.toInt + 1))).setResult .ok)

/-- The end of a taken jump, which has set IC itself (R35, R152), result Ok. -/
def completeJump (target : Word) (s : State) : Answer := .next ((s.setIc target).setResult .ok)

/-- A step taken while HALTED is true: nothing but its result (R31). -/
def State.noOp (s : State) : State := s.setResult .noOp

/-- One call of a callable of the environment, then `k` with the value it returned, or with none where the environment's
replies are used up and it just returns (log 6). A callable that fails (R191; D29) or calls back (R48; D23) is refused. -/
def invoke (s : State) (k : Option Word → State → Answer) : Answer :=
  match s.replies with
  | [] => k none s
  | .returns v :: rest => k (some v) (s.setReplies rest)
  | .fails :: _ => .refused .callableFailed
  | .callsBack :: _ => .refused .callbackReentered

/-- `InRead(c)` (R55): one call of the producer of channel `c`, recorded as `In(c, v)`; where the replies do not say, the value
is free (D12; log 4). -/
def inRead (c : Byte) (s : State) (k : Word → State → Answer) : Answer :=
  invoke s fun reply t =>
    let v := reply.getD (Config.inputOracle t.events c)
    k v (t.addEvent (.input c v))

/-- `OutWrite(c, v)` (R56): one call of the consumer of channel `c`, recorded as `Out(c, v)`. -/
def outWrite (c : Byte) (v : Word) (s : State) (k : State → Answer) : Answer :=
  invoke s fun _ t => k (t.addEvent (.output c v))

/-- `Notify()` (R28): one call of the subscriber, recorded as `HaltNotify`, if one is registered. -/
def notify (s : State) (k : State → Answer) : Answer :=
  if s.haltSub then invoke s fun _ t => k (t.addEvent .haltNotify) else k s

/-- The word the step executes, or the error of its first checks in their order (R32, R33, R51, R185). -/
def State.fetch (s : State) : Except Fault InstrWord :=
  match s.prog with
  | none => .error .emptyProgram
  | some [] => .error .emptyProgram
  | some (w :: ws) =>
    if s.ic.toInt < 0 then .error (.invalidAddress s.ic)
    else match (w :: ws)[s.ic.toInt.toNat]? with
      | some word => .ok word
      | none => .error (.invalidAddress s.ic)

/-- The instruction the step executes, or the error that stops it before its own part (R32 to R34, R80, R185). -/
def State.fetchInstr (s : State) : Except Fault Instr :=
  match s.fetch with
  | .error e => .error e
  | .ok word =>
    match decode word with
    | .ok i => .ok i
    | .error (.invalidOpcode opcode) => .error (.invalidOpcode opcode)

/-- A program with `word` at address `a`: the given program with that one word replaced, or lengthened by zero words up to it. -/
def ProgramStore.place (p : ProgramStore) (a : Nat) (word : InstrWord) : ProgramStore :=
  let words := p.getD []
  if a < words.length then some (words.set a word)
  else some (words ++ List.replicate (a - words.length) ⟨0, 0, 0, 0⟩ ++ [word])

/-- The codes of R180 (D24: labels, with no behaviour). -/
def faultCode : Fault → Nat
  | .emptyProgram => 1
  | .invalidAddress _ => 2
  | .invalidOpcode _ => 3
  | .invalidChannel _ _ => 4
  | .uninitializedRegister _ => 5
  | .divideByZero => 6

end Sys2Proof.Machine
end

