-- ==== Sys2Proof/Machine/Operands.lean ====
section
/-! DEFINITION. The operand forms: reading a register that may be Unwritten, and the shared frame of the ten binary
operations. -/

namespace Sys2Proof.Machine

/-- `x[i]` as a source (R10, R22): its value, or `UninitializedRegister(i)`. -/
def withReg (i : Byte) (s : State) (k : Word → Answer) : Answer :=
  match s.reg i with
  | some v => k v
  | none => raise (.uninitializedRegister i) s

/-- Two sources, `a` read before `b` (R120, R150, R186; D10). -/
def withRegs (a b : Byte) (s : State) (k : Word → Word → Answer) : Answer :=
  withReg a s fun va => withReg b s fun vb => k va vb

/-- Writes the destination and completes the step. -/
def writeBack (d : Byte) (v : Word) (s : State) : Answer := complete (s.setReg d v)

/-- The frame of the ten RRR instructions (R120): both sources are read, `op` gives the result or raises, the destination is
written. -/
def binary (op : Word → Word → Except Fault Word) (d a b : Byte) (s : State) : Answer :=
  withRegs a b s fun va vb =>
    match op va vb with
    | .ok v => writeBack d v s
    | .error e => raise e s

end Sys2Proof.Machine
end

