-- ==== Sys2Proof/Machine/Arithmetic.lean ====
section
/-! DEFINITION. Add, Subtract, Multiply, Divide and Modulus (spec/41_arithmetic.md). -/

namespace Sys2Proof.Machine

/-- R121. -/
def addOp (va vb : Word) : Except Fault Word := .ok (wrap16 (va.toInt + vb.toInt))

/-- R122. -/
def subtractOp (va vb : Word) : Except Fault Word := .ok (wrap16 (va.toInt - vb.toInt))

/-- R123. -/
def multiplyOp (va vb : Word) : Except Fault Word := .ok (wrap16 (va.toInt * vb.toInt))

/-- R124: the quotient rounded toward zero, then wrapped (D3; log 7); divisor 0 raises (D2). -/
def divideOp (va vb : Word) : Except Fault Word :=
  if vb.toInt = 0 then .error .divideByZero else .ok (wrap16 (va.toInt.tdiv vb.toInt))

/-- R125: the remainder of the truncating division (D3; log 7); divisor 0 raises (D2). -/
def modulusOp (va vb : Word) : Except Fault Word :=
  if vb.toInt = 0 then .error .divideByZero else .ok (wrap16 (va.toInt - vb.toInt * va.toInt.tdiv vb.toInt))

/-- R121. -/
def execAdd (d a b : Byte) (s : State) : Answer := binary addOp d a b s

/-- R122. -/
def execSubtract (d a b : Byte) (s : State) : Answer := binary subtractOp d a b s

/-- R123. -/
def execMultiply (d a b : Byte) (s : State) : Answer := binary multiplyOp d a b s

/-- R124. -/
def execDivide (d a b : Byte) (s : State) : Answer := binary divideOp d a b s

/-- R125. -/
def execModulus (d a b : Byte) (s : State) : Answer := binary modulusOp d a b s

end Sys2Proof.Machine
end

