-- ==== Sys2Proof/Machine/Flags.lean ====
section
/-! DEFINITION. The condition-code logic: the difference Compare puts into CMP, and the conditions a Jump tests on it. -/

namespace Sys2Proof.Machine

/-- The value of CMP after comparing `va` with `vb` (R150): the wrapped difference. -/
def difference (va vb : Word) : Word := wrap16 (va.toInt - vb.toInt)

/-- `cond(k, CMP)` (R151; C5): comparisons of the signed CMP with 0; a reserved code never holds (R81). -/
def condHolds (k : Cond) (cmp : Word) : Bool :=
  match k with
  | .unconditional => true
  | .equal => decide (cmp.toInt = 0)
  | .notEqual => decide (cmp.toInt ≠ 0)
  | .above => decide (0 < cmp.toInt)
  | .aboveOrEqual => decide (0 ≤ cmp.toInt)
  | .below => decide (cmp.toInt < 0)
  | .belowOrEqual => decide (cmp.toInt ≤ 0)
  | .reserved _ => false

end Sys2Proof.Machine
end

