-- ==== Sys2Proof/Machine/CompareJump.lean ====
section
/-! DEFINITION. Compare and Jump (spec/43_compare_jump.md). -/

namespace Sys2Proof.Machine

/-- R150: the wrapped difference of the two sources goes to CMP. -/
def execCompare (a b : Byte) (s : State) : Answer :=
  withRegs a b s fun va vb => complete (s.setCmp (difference va vb))

/-- R152: the absolute target where the condition holds on CMP, the next address where it does not. -/
def execJump (k : Cond) (target : Word) (s : State) : Answer :=
  if condHolds k s.cmp then completeJump target s else complete s

end Sys2Proof.Machine
end

