-- ==== Sys2Proof/Machine/Halt.lean ====
section
/-! DEFINITION. Halt (spec/45_halt.md). -/

namespace Sys2Proof.Machine

/-- R170: HALTED is set, then the subscriber notified, then IC advanced (R35). -/
def execHalt (s : State) : Answer := notify (s.setHalted true) complete

end Sys2Proof.Machine
end

