-- ==== Sys2Proof/Machine/LoadIo.lean ====
section
/-! DEFINITION. Load, Input and Output (spec/40_load_io.md). -/

namespace Sys2Proof.Machine

/-- R110: the immediate goes to the destination. -/
def execLoad (d : Byte) (imm : Word) (s : State) : Answer := writeBack d imm s

/-- R111: the channel is checked before the producer is called. -/
def execInput (d c : Byte) (s : State) : Answer :=
  if s.inputBound c then inRead c s fun v t => writeBack d v t
  else raise (.invalidChannel .input c) s

/-- R112: the channel is checked, then the register read, then the consumer called (D10). -/
def execOutput (src c : Byte) (s : State) : Answer :=
  if s.outputBound c then withReg src s fun v => outWrite c v s complete
  else raise (.invalidChannel .output c) s

end Sys2Proof.Machine
end

