-- ==== Sys2Proof/Machine/Logical.lean ====
section
/-! DEFINITION. LogicalAnd, LogicalOr, LogicalNot and LogicalXor, bitwise on the 16-bit pattern (spec/44_logical.md; D6;
log 9). -/

namespace Sys2Proof.Machine

/-- R160. -/
def andOp (va vb : Word) : Except Fault Word := .ok (va &&& vb)

/-- R161. -/
def orOp (va vb : Word) : Except Fault Word := .ok (va ||| vb)

/-- R163. -/
def xorOp (va vb : Word) : Except Fault Word := .ok (va ^^^ vb)

/-- R160. -/
def execLogicaland (d a b : Byte) (s : State) : Answer := binary andOp d a b s

/-- R161. -/
def execLogicalor (d a b : Byte) (s : State) : Answer := binary orOp d a b s

/-- R162: the complement of the one source. -/
def execLogicalnot (d a : Byte) (s : State) : Answer := withReg a s fun va => writeBack d (~~~va) s

/-- R163. -/
def execLogicalxor (d a b : Byte) (s : State) : Answer := binary xorOp d a b s

end Sys2Proof.Machine
end

