-- ==== Sys2Proof/Machine/Shift.lean ====
section
/-! DEFINITION. LeftShift and RightShift (spec/42_shift.md). -/

namespace Sys2Proof.Machine

/-- The counts whose result the spec states (R140, R141). -/
def countInRange (vb : Word) : Bool := decide (0 ≤ vb.toInt ∧ vb.toInt ≤ 15)

/-- R140 (D4; log 8); another count gives the free value of R142. -/
def leftshiftOp (va vb : Word) : Except Fault Word :=
  if countInRange vb then .ok (wrap16 (va.toInt * 2 ^ vb.toInt.toNat))
  else .ok (Config.shiftOutOfRange .left va vb)

/-- R141: the arithmetic shift, rounding toward minus infinity (D4; log 8); another count gives the free value of R142. -/
def rightshiftOp (va vb : Word) : Except Fault Word :=
  if countInRange vb then .ok (wrap16 (va.toInt.fdiv (2 ^ vb.toInt.toNat)))
  else .ok (Config.shiftOutOfRange .right va vb)

/-- R140. -/
def execLeftshift (d a b : Byte) (s : State) : Answer := binary leftshiftOp d a b s

/-- R141. -/
def execRightshift (d a b : Byte) (s : State) : Answer := binary rightshiftOp d a b s

end Sys2Proof.Machine
end

