-- ==== Sys2Proof/Machine/Dispatch.lean ====
section
/-! DEFINITION. One arm per instruction: the opcode map of R78. -/

namespace Sys2Proof.Machine

def exec (i : Instr) (s : State) : Host.Outcome State Fault Refusal :=
  match i with
  | .load d imm => Sys2Proof.Machine.execLoad d imm s
  | .input d c => Sys2Proof.Machine.execInput d c s
  | .output src c => Sys2Proof.Machine.execOutput src c s
  | .add d a b => Sys2Proof.Machine.execAdd d a b s
  | .subtract d a b => Sys2Proof.Machine.execSubtract d a b s
  | .multiply d a b => Sys2Proof.Machine.execMultiply d a b s
  | .divide d a b => Sys2Proof.Machine.execDivide d a b s
  | .modulus d a b => Sys2Proof.Machine.execModulus d a b s
  | .leftshift d a b => Sys2Proof.Machine.execLeftshift d a b s
  | .rightshift d a b => Sys2Proof.Machine.execRightshift d a b s
  | .compare a b => Sys2Proof.Machine.execCompare a b s
  | .jump k target => Sys2Proof.Machine.execJump k target s
  | .logicaland d a b => Sys2Proof.Machine.execLogicaland d a b s
  | .logicalor d a b => Sys2Proof.Machine.execLogicalor d a b s
  | .logicalnot d a => Sys2Proof.Machine.execLogicalnot d a s
  | .logicalxor d a b => Sys2Proof.Machine.execLogicalxor d a b s
  | .halt => Sys2Proof.Machine.execHalt s

end Sys2Proof.Machine
end

