-- ==== Sys2Proof/Machine/Step.lean ====
section
/-! DEFINITION. The step, and placing a word where the next step fetches. -/

namespace Sys2Proof.Machine

/-- One step of the core (R31 to R36): a no-op while halted, the error of the fetch and decode, or the instruction. -/
def step (s : State) : Host.Outcome State Fault Refusal :=
  if s.halted then .next s.noOp
  else match s.fetchInstr with
    | .error e => raise e s
    | .ok i => exec i s

/-- `s` with the word `w` (its bits above `nbits` zero) where `step` fetches next: not halted, IC kept where it is not negative
and 0 where it is, the word at that address of the program store (log 15: it stands for the host's load port, R42). -/
def State.withFetchWord (s : State) (nbits w : Nat) : State :=
  let a := s.ic.toInt.toNat
  { s with
    halted := false
    ic := BitVec.ofNat 16 a
    prog := ProgramStore.place s.prog a (InstrWord.ofBits (BitVec.ofNat 32 (w % 2 ^ nbits))) }

end Sys2Proof.Machine
end

