-- ==== Sys2Proof/Machine/Assembler.lean ====
section
/-! DEFINITION. The assembler (R85 to R100): `compile(source_text) -> byte_buffer`. It is a tool around the core (R4). -/

namespace Sys2Proof.Machine

/-- White space of the trimming and of the mnemonic's end (R85, R90; log 16). -/
def isSpace (c : Char) : Bool := c.isWhitespace

/-- The lines of a text, split at CR LF, LF and CR (R85; D20). -/
def splitLines : Text → List Text
  | [] => [[]]
  | '\r' :: '\n' :: cs => [] :: splitLines cs
  | '\r' :: cs => [] :: splitLines cs
  | '\n' :: cs => [] :: splitLines cs
  | c :: cs =>
    match splitLines cs with
    | [] => [[c]]
    | l :: ls => (c :: l) :: ls

/-- A line up to its first comment marker `//` (R85). -/
def cutComment : Text → Text
  | [] => []
  | '/' :: '/' :: _ => []
  | c :: cs => c :: cutComment cs

/-- A text without leading and trailing white space (R85, R90). -/
def trim (t : Text) : Text := ((t.dropWhile isSpace).reverse.dropWhile isSpace).reverse

/-- A line of the source as the passes see it: `original` as the source has it, with its white space and comment, and `text`,
which the passes read (R85, R91). -/
structure SourceLine where
  original : Text
  text : Text
  deriving DecidableEq, Repr

/-- One line cut at its comment and trimmed (R85), with its original kept (R91). -/
def readLine (original : Text) : SourceLine := ⟨original, trim (cutComment original)⟩

/-- The preprocessing pass (R85): the surviving lines, trimmed, in order. -/
def preprocess (source : Text) : List SourceLine :=
  ((splitLines source).map readLine).filter fun l => !l.text.isEmpty

/-- A label declaration begins with a colon (R86). -/
def isLabel (line : SourceLine) : Bool := line.text.head? == some ':'

/-- The instruction lines, in address order (R86, R87). -/
def instructionLines (lines : List SourceLine) : List SourceLine := lines.filter fun l => !isLabel l

/-- The Jump Map: the key of a label is its whole trimmed line (R88; D17). -/
abbrev JumpMap := List (Text × Nat)

/-- The label pass (R87): `address` is the number of instruction lines before `lines`. A key declared twice fails (R89; D18). -/
def labelPass : List SourceLine → Nat → JumpMap → Except ToolError JumpMap
  | [], _, labels => .ok labels
  | line :: lines, address, labels =>
    if isLabel line then
      match labels.lookup line.text with
      | some _ => .error (.duplicateLabel line.text)
      | none => labelPass lines address (labels ++ [(line.text, address)])
    else labelPass lines (address + 1) labels

/-- A text split at every comma (R90). -/
def splitCommas : Text → List Text
  | [] => [[]]
  | ',' :: cs => [] :: splitCommas cs
  | c :: cs =>
    match splitCommas cs with
    | [] => [[c]]
    | l :: ls => (c :: l) :: ls

/-- Strips the mnemonic and one space from the front of the first operand, where they stand there (R90; C9). -/
def stripMnemonic (mnemonic : Text) : List Text → List Text
  | [] => []
  | operand :: rest =>
    if (mnemonic ++ [' ']).isPrefixOf operand then operand.drop (mnemonic.length + 1) :: rest else operand :: rest

/-- The mnemonic of an instruction line and its operands (R90; D20). -/
def splitInstruction (line : Text) : Text × List Text :=
  let mnemonic := line.takeWhile fun c => !isSpace c
  let remainder := (line.dropWhile fun c => !isSpace c).dropWhile isSpace
  if remainder.isEmpty then (mnemonic, [])
  else (mnemonic, stripMnemonic mnemonic ((splitCommas remainder).map trim))

/-- One or more decimal digits (R94). -/
def parseDigits (t : Text) : Option Nat :=
  if t.isEmpty then none
  else if t.all Char.isDigit then some (t.foldl (fun n c => 10 * n + (c.toNat - 48)) 0)
  else none

/-- An integer literal: an optional sign, then decimal digits (R94; D20). -/
def parseInteger : Text → Option Int
  | '+' :: ds => (parseDigits ds).map fun n => (n : Int)
  | '-' :: ds => (parseDigits ds).map fun n => -(n : Int)
  | ds => (parseDigits ds).map fun n => (n : Int)

/-- A register or channel operand: 0 to 255 (R93). -/
def parseByte (token : Text) : Except ToolError Byte :=
  match parseInteger token with
  | some n => if 0 ≤ n ∧ n ≤ 255 then .ok (BitVec.ofInt 8 n) else .error (.malformedOperand token)
  | none => .error (.malformedOperand token)

/-- An immediate operand: -32768 to 32767 (R94). -/
def parseImmediate (token : Text) : Except ToolError Word :=
  match parseInteger token with
  | some n => if -32768 ≤ n ∧ n ≤ 32767 then .ok (BitVec.ofInt 16 n) else .error (.malformedOperand token)
  | none => .error (.malformedOperand token)

/-- The seven condition names (R77, R95), exact and case-sensitive. -/
def conditionNames : List (Text × Cond) :=
  [("unconditional".toList, .unconditional), ("equal".toList, .equal), ("notequal".toList, .notEqual),
   ("above".toList, .above), ("aboveorequal".toList, .aboveOrEqual), ("below".toList, .below),
   ("beloworequal".toList, .belowOrEqual)]

/-- A jump's condition operand (R95). -/
def parseCondition (token : Text) : Except ToolError Cond :=
  match conditionNames.lookup token with
  | some k => .ok k
  | none => .error (.unrecognizedJumpCondition token)

/-- A resolved address as the signed 16-bit target (R96; C2); above 32767 the spec states no target (log 18). -/
def targetOf (address : Nat) : Word :=
  if address ≤ 32767 then BitVec.ofNat 16 address else Config.farTarget address

/-- A jump's label operand, looked up by its whole text (R88, R96). -/
def parseLabel (labels : JumpMap) (token : Text) : Except ToolError Word :=
  match labels.lookup token with
  | some address => .ok (targetOf address)
  | none => .error (.unresolvedJumpLabel token)

/-- The operand shapes of R97. -/
inductive Shape where
  | load
  | input
  | output
  /-- `OP A, B, D`. -/
  | binary (make : Byte → Byte → Byte → Instr)
  | compare
  | jump
  | logicalnot
  | halt

/-- The 17 mnemonics (R91), exact and lower-case (D20). -/
def mnemonics : List (Text × Shape) :=
  [("load".toList, .load), ("input".toList, .input), ("output".toList, .output), ("add".toList, .binary .add),
   ("subtract".toList, .binary .subtract), ("multiply".toList, .binary .multiply), ("divide".toList, .binary .divide),
   ("modulus".toList, .binary .modulus), ("leftshift".toList, .binary .leftshift),
   ("rightshift".toList, .binary .rightshift), ("compare".toList, .compare), ("jump".toList, .jump),
   ("logicaland".toList, .binary .logicaland), ("logicalor".toList, .binary .logicalor),
   ("logicalnot".toList, .logicalnot), ("logicalxor".toList, .binary .logicalxor), ("halt".toList, .halt)]

/-- The operands of a line in text order, checked left to right, as the instruction of R97. A wrong count fails with the whole
line (R92; D19), as the passes read it (log 17). -/
def buildOperands (labels : JumpMap) (line : Text) : Shape → List Text → Except ToolError Instr
  | .load, [v, r] => do
    let imm ← parseImmediate v
    let d ← parseByte r
    return .load d imm
  | .input, [r, c] => do
    let d ← parseByte r
    let channel ← parseByte c
    return .input d channel
  | .output, [r, c] => do
    let src ← parseByte r
    let channel ← parseByte c
    return .output src channel
  | .binary make, [x, y, z] => do
    let a ← parseByte x
    let b ← parseByte y
    let d ← parseByte z
    return make d a b
  | .compare, [x, y] => do
    let a ← parseByte x
    let b ← parseByte y
    return .compare a b
  | .jump, [k, l] => do
    let condition ← parseCondition k
    let target ← parseLabel labels l
    return .jump condition target
  | .logicalnot, [x, z] => do
    let a ← parseByte x
    let d ← parseByte z
    return .logicalnot d a
  | .halt, [] => .ok .halt
  | _, _ => .error (.malformedOperand line)

/-- One instruction line (R90 to R97); an unmatched mnemonic fails with the line's full original text (R91, R181). -/
def translate (labels : JumpMap) (line : SourceLine) : Except ToolError InstrWord :=
  let (mnemonic, operands) := splitInstruction line.text
  match mnemonics.lookup mnemonic with
  | some shape => (buildOperands labels line.text shape operands).map encode
  | none => .error (.unrecognizedMnemonic line.original)

/-- The translation pass: the words in address order, or the first failing line's error (R98, R99). -/
def translateAll (labels : JumpMap) : List SourceLine → Except ToolError (List InstrWord)
  | [] => .ok []
  | line :: lines => do
    let word ← translate labels line
    let words ← translateAll labels lines
    return word :: words

/-- The words of a source text: preprocessing, the label pass over every line, then the translation pass (R99). -/
def assemble (source : Text) : Except ToolError (List InstrWord) := do
  let lines := preprocess source
  let labels ← labelPass lines 0 []
  translateAll labels (instructionLines lines)

/-- `compile(source_text)`: the binary form of the program (R98), or the first error and no buffer (R99). -/
def compile (source : Text) : Except ToolError (List Byte) := (assemble source).map encodeProgram

end Sys2Proof.Machine
end

