-- ==== Sys2Proof/Machine/Run.lean ====
section
/-! DEFINITION. A run (the document's `ExecuteTillHalt`): its steps, its ends, and its observation. -/

namespace Sys2Proof.Machine

/-- The two ways a run ends (R38; D27). -/
inductive RunEnd where
  /-- HALTED is true. -/
  | halted
  /-- A step raised `e`, which the run hands to the host. -/
  | faulted (e : Fault)
  deriving DecidableEq, Repr

/-- Where a run stands after some number of steps. -/
inductive RunStatus where
  /-- Not ended. -/
  | running (s : State)
  /-- Ended, with the state the host finds (after a fault, the core's state as before the failing step: R183). -/
  | ended (how : RunEnd) (s : State)
  /-- A callable misbehaved: the run has no meaning (R48, R191). -/
  | refused (r : Refusal)
  deriving DecidableEq, Repr

/-- At most `k` steps of a run: it stops when HALTED is true and at the first error (R37). -/
def runFor : Nat → State → RunStatus
  | 0, s => if s.halted then .ended .halted s else .running s
  | k + 1, s =>
    if s.halted then .ended .halted s
    else match step s with
      | .next t =>
        match t.result with
        | some (.error e) => .ended (.faulted e) t
        | _ => runFor k t
      | .fault e => .ended (.faulted e) s
      | .refused r => .refused r

/-- The run from `s` ends (R38). -/
def RunEnds (s : State) (how : RunEnd) (t : State) : Prop := ∃ k, runFor k s = .ended how t

/-- The run from `s` is infinite (R37, R38). -/
def RunForever (s : State) : Prop := ∀ k, ∃ t, runFor k s = .running t

/-- What is observed of an ended run (R63; D27): its own events in order, then its end. -/
structure Observation where
  events : List Event
  ending : RunEnd
  deriving DecidableEq, Repr

/-- The observation of a run from `s` that has `k` steps to end in. -/
def observe (k : Nat) (s : State) : Option Observation :=
  match runFor k s with
  | .ended how t => some ⟨t.events.drop s.events.length, how⟩
  | .running _ => none
  | .refused _ => none

end Sys2Proof.Machine
end

