-- ==== Sys2Proof/Machine/Ports.lean ====
section
/-! DEFINITION. The core's ports (R40): the host's requests and reads, served one at a time between steps. -/

namespace Sys2Proof.Machine

/-- Reset (R210; D7): everything of R49 but the program. The records of the ports are no core state and stay (log 21). -/
def State.resetRequest (s : State) : State :=
  { s with
    regs := Vector.replicate 256 none
    cmp := 0
    ic := 0
    halted := false
    inBound := Vector.replicate 256 false
    outBound := Vector.replicate 256 false
    haltSub := false }

/-- Clear halt (R44; D25). -/
def State.clearHalt (s : State) : State := s.setHalted false

/-- What the load port answers (R42; D21). -/
inductive LoadAnswer where
  | loaded
  /-- The sequence has more than 32768 words; PROG is unchanged. -/
  | tooLong (words : Nat)
  /-- The binary form does not decode (R52); PROG is unchanged. -/
  | badForm (e : ToolError)
  deriving DecidableEq, Repr

/-- Load program (R42): PROG and nothing else; a sequence of more than 32768 words is refused (D21). -/
def State.loadProgram (s : State) (words : List InstrWord) : State × LoadAnswer :=
  if words.length ≤ Config.programLimit then (s.setProg (some words), .loaded) else (s, .tooLong words.length)

/-- Load program from its binary form (R42, R52). -/
def State.loadBinary (s : State) (bytes : List Byte) : State × LoadAnswer :=
  match decodeProgram bytes with
  | .ok words => s.loadProgram words
  | .error e => (s, .badForm e)

/-- The host's control requests and reads (R40 (1), (2)). -/
inductive Request where
  | step
  /-- A run watched for at most `limit` steps (log 20). -/
  | run (limit : Nat)
  | reset
  | clearHalt
  | setIc (v : Word)
  | loadProgram (words : List InstrWord)
  | loadBinary (bytes : List Byte)
  | bindInput (c : Byte)
  | bindOutput (c : Byte)
  | subscribe
  | readReg (i : Byte)
  | readCmp
  | readIc
  | readHalted
  deriving DecidableEq, Repr

/-- What a request answers. -/
inductive Response where
  | done
  | stepped (r : Option StepResult)
  | ranTo (how : RunEnd)
  | stillRunning
  | load (answer : LoadAnswer)
  /-- A register as the host sees it: none is Unwritten (R41; D25). -/
  | register (v : Option Word)
  | word (v : Word)
  | flag (b : Bool)
  deriving DecidableEq, Repr

/-- Serves one request (R40 to R47). Reads change nothing (R41); no request writes a register or CMP but reset (C6; D25). -/
def serve (q : Request) (s : State) : Host.Outcome (State × Response) Fault Refusal :=
  match q with
  | .step =>
    match step s with
    | .next t => .next (t, .stepped t.result)
    | .fault e => .fault e
    | .refused r => .refused r
  | .run limit =>
    match runFor limit s with
    | .running t => .next (t, .stillRunning)
    | .ended how t => .next (t, .ranTo how)
    | .refused r => .refused r
  | .reset => .next (s.resetRequest, .done)
  | .clearHalt => .next (s.clearHalt, .done)
  | .setIc v => .next (s.setIc v, .done)
  | .loadProgram words => .next ((s.loadProgram words).1, .load (s.loadProgram words).2)
  | .loadBinary bytes => .next ((s.loadBinary bytes).1, .load (s.loadBinary bytes).2)
  | .bindInput c => .next (s.bindInput c, .done)
  | .bindOutput c => .next (s.bindOutput c, .done)
  | .subscribe => .next (s.setHaltSub true, .done)
  | .readReg i => .next (s, .register (s.reg i))
  | .readCmp => .next (s, .word s.cmp)
  | .readIc => .next (s, .word s.ic)
  | .readHalted => .next (s, .flag s.halted)

end Sys2Proof.Machine
end

