-- ==== Sys2Proof/Safety.lean ====
section
/-! DEFINITION. The terms claims are stated in: where a step stands, what an instruction reads and writes, which answers are
the same, the machine's invariant, and a safe run. -/

namespace Sys2Proof.Machine

/-- The core is not halted and the word at IC is `w`: the step executes `w` (R31 to R34). -/
def AtWord (s : State) (w : InstrWord) : Prop :=
  s.halted = false ∧ 0 ≤ s.ic.toInt ∧ (s.prog.getD [])[s.ic.toInt.toNat]? = some w

/-- The two states have the same architectural state (R20); their records of the ports may differ. -/
def SameCore (s t : State) : Prop :=
  s.regs = t.regs ∧ s.cmp = t.cmp ∧ s.ic = t.ic ∧ s.halted = t.halted ∧ s.prog = t.prog ∧ s.inBound = t.inBound ∧
    s.outBound = t.outBound ∧ s.haltSub = t.haltSub

/-- The answer R183, R184 and R190 give a step of `s` that raises `e`, field by field. That it is a next state, and that it
records the error in the fault log, rest on D11 and log 2. -/
def raisedAnswer (e : Fault) (s : State) : Answer :=
  .next { s with result := some (.error e), faultLog := s.faultLog ++ [e] }

/-- `s` after a completed step that took no jump (R35, D9), field by field. -/
def advanced (s : State) : State := { s with ic := s.ic + 1, result := some .ok }

/-- `s` with `v` in register `d`, field by field. -/
def withValue (s : State) (d : Byte) (v : Word) : State := { s with regs := s.regs.set d.toNat (some v) d.isLt }

/-- The register an instruction writes (R23, R72). -/
def destOf : Instr → Option Byte
  | .load d _ | .input d _ | .add d _ _ | .subtract d _ _ | .multiply d _ _ | .divide d _ _ | .modulus d _ _
  | .leftshift d _ _ | .rightshift d _ _ | .logicaland d _ _ | .logicalor d _ _ | .logicalnot d _
  | .logicalxor d _ _ => some d
  | .output _ _ | .compare _ _ | .jump _ _ | .halt => none

/-- The registers an instruction reads (R23, R72). -/
def sourcesOf : Instr → List Byte
  | .output src _ => [src]
  | .add _ a b | .subtract _ a b | .multiply _ a b | .divide _ a b | .modulus _ a b | .leftshift _ a b
  | .rightshift _ a b | .logicaland _ a b | .logicalor _ a b | .logicalxor _ a b | .compare a b => [a, b]
  | .logicalnot _ a => [a]
  | .load _ _ | .input _ _ | .jump _ _ | .halt => []

/-- Whether an instruction reads CMP: a Jump with condition code 1 to 6 (R24). -/
def readsCmp : Instr → Bool
  | .jump .unconditional _ | .jump (.reserved _) _ => false
  | .jump .equal _ | .jump .notEqual _ | .jump .above _ | .jump .aboveOrEqual _ | .jump .below _
  | .jump .belowOrEqual _ => true
  | .load _ _ | .input _ _ | .output _ _ | .add _ _ _ | .subtract _ _ _ | .multiply _ _ _ | .divide _ _ _
  | .modulus _ _ _ | .leftshift _ _ _ | .rightshift _ _ _ | .compare _ _ | .logicaland _ _ _ | .logicalor _ _ _
  | .logicalnot _ _ | .logicalxor _ _ _ | .halt => false

/-- Where a completed instruction leaves IC (R35, R152). -/
def nextIc (i : Instr) (s : State) : Word :=
  match i with
  | .jump k target => if condHolds k s.cmp then target else s.ic + 1
  | _ => s.ic + 1

/-- An answer with CMP left out of account. -/
def forgetCmp : Answer → Answer
  | .next t => .next { t with cmp := 0 }
  | .fault e => .fault e
  | .refused r => .refused r

/-- Two answers that agree but for registers, and in the destination `d` where the instruction completed. -/
def AgreeButRegs (d : Option Byte) : Answer → Answer → Prop
  | .next t, .next u =>
    { u with regs := t.regs } = t ∧ ∀ r, d = some r → t.result = some .ok → u.reg r = t.reg r
  | .fault e, .fault f => e = f
  | .refused p, .refused q => p = q
  | _, _ => False

/-- The ten binary operations follow the frame of R120 with result `op`: sources read in the order `a`, `b` (D10), the one
destination written, everything else kept but IC and the step result. -/
def FollowsFrame (make : Byte → Byte → Byte → Instr) (op : Word → Word → Except Fault Word) : Prop :=
  ∀ (d a b : Byte) (s : State),
    (s.reg a = none → exec (make d a b) s = raisedAnswer (.uninitializedRegister a) s) ∧
    (∀ va, s.reg a = some va → s.reg b = none →
      exec (make d a b) s = raisedAnswer (.uninitializedRegister b) s) ∧
    (∀ va vb v, s.reg a = some va → s.reg b = some vb → op va vb = .ok v →
      exec (make d a b) s = .next (advanced (withValue s d v))) ∧
    (∀ va vb e, s.reg a = some va → s.reg b = some vb → op va vb = .error e →
      exec (make d a b) s = raisedAnswer e s)

/-- The information of an error is one R180 allows: `InvalidOpcode` carries 16 to 254. -/
def Fault.wellFormed : Fault → Bool
  | .invalidOpcode opcode => decide (16 ≤ opcode.toNat ∧ opcode.toNat ≤ 254)
  | .emptyProgram | .invalidAddress _ | .invalidChannel _ _ | .uninitializedRegister _ | .divideByZero => true

/-- The machine's invariant: the program store has the form of R20, every logged error carries information R180 allows, and an
error on the step-result port is the last of the fault log (R184, R190). -/
def Consistent (s : State) : Prop :=
  s.prog.wf = true ∧ (∀ e ∈ s.faultLog, e.wellFormed = true) ∧
    ∀ e, s.result = some (.error e) → s.faultLog.getLast? = some e

/-- A safe run: it never ends in an execution error and no callable makes it meaningless. It may end halted or be infinite. -/
def SafeRun (s : State) : Prop :=
  ∀ k, (∀ e t, runFor k s ≠ .ended (.faulted e) t) ∧ ∀ r, runFor k s ≠ .refused r

end Sys2Proof.Machine
end

