-- ==== Sys2Proof/Certificates/Slice0/Obligations.lean ====
section
/-! DEFINITION. The statements for the provers. "D<n>" is a decision of spec/92_eei_decisions.md, "log <n>" a row of
notes/assumptions: a clause that rests on one is the spec's or the model's choice, not the document's. -/

open Sys2Proof Sys2Proof.Machine

/-- Decoding the encoding of any well-formed instruction gives that instruction, at every value of every operand (R72, R78,
R83). -/
def Obligations.DecodeInvertsEncode : Prop :=
  ∀ i : Instr, i.wellFormed = true → decode (encode i) = .ok i

/-- A word that decodes gives a well-formed instruction, whose encoding is that word with its ignored bytes (R72, R79) set to 0
(R83; the zeros are the spec's decision D16). -/
def Obligations.DecodedWordReencodesWithIgnoredBytesZero : Prop :=
  ∀ (w : InstrWord) (i : Instr), decode w = .ok i →
    i.wellFormed = true ∧
      encode i =
        if w.opcode.toNat = 255 then ⟨w.opcode, 0, 0, 0⟩
        else if w.opcode.toNat = 1 ∨ w.opcode.toNat = 2 ∨ w.opcode.toNat = 10 ∨ w.opcode.toNat = 14 then
          ⟨w.opcode, w.data1, w.data2, 0⟩
        else w

/-- The opcode byte selects the instruction, and 16 to 254 select none (R78); the operands lie as R72 says; and the bytes R72 marks
ignored change nothing, which the spec derives (R79; log 22). -/
def Obligations.OpcodeSelectsTheInstruction : Prop :=
  ∀ x y z : Byte,
    decode ⟨0x00, x, y, z⟩ = .ok (.load x (join y z)) ∧
    decode ⟨0x01, x, y, z⟩ = .ok (.input x y) ∧
    decode ⟨0x02, x, y, z⟩ = .ok (.output x y) ∧
    decode ⟨0x03, x, y, z⟩ = .ok (.add x y z) ∧
    decode ⟨0x04, x, y, z⟩ = .ok (.subtract x y z) ∧
    decode ⟨0x05, x, y, z⟩ = .ok (.multiply x y z) ∧
    decode ⟨0x06, x, y, z⟩ = .ok (.divide x y z) ∧
    decode ⟨0x07, x, y, z⟩ = .ok (.modulus x y z) ∧
    decode ⟨0x08, x, y, z⟩ = .ok (.leftshift x y z) ∧
    decode ⟨0x09, x, y, z⟩ = .ok (.rightshift x y z) ∧
    decode ⟨0x0A, x, y, z⟩ = .ok (.compare x y) ∧
    decode ⟨0x0B, x, y, z⟩ = .ok (.jump (decodeCond x) (join y z)) ∧
    decode ⟨0x0C, x, y, z⟩ = .ok (.logicaland x y z) ∧
    decode ⟨0x0D, x, y, z⟩ = .ok (.logicalor x y z) ∧
    decode ⟨0x0E, x, y, z⟩ = .ok (.logicalnot x y) ∧
    decode ⟨0x0F, x, y, z⟩ = .ok (.logicalxor x y z) ∧
    decode ⟨0xFF, x, y, z⟩ = .ok .halt ∧
    ∀ op : Byte, 16 ≤ op.toNat → op.toNat ≤ 254 → decode ⟨op, x, y, z⟩ = .error (.invalidOpcode op)

/-- Words written out from the encodings of R110 to R170 and the examples of spec/95_test_vectors.md, as W of R7, decode to the
instructions they stand for. -/
def Obligations.WordsOfTheTableDecodeAsWritten : Prop :=
  decodeTableWord 32 0x000180C8 = some (.load 1 0x80C8) ∧
  decodeTableWord 32 0x010204AB = some (.input 2 4) ∧
  decodeTableWord 32 0x02020100 = some (.output 2 1) ∧
  decodeTableWord 32 0x03020001 = some (.add 2 0 1) ∧
  decodeTableWord 32 0x08020001 = some (.leftshift 2 0 1) ∧
  decodeTableWord 32 0x0A070800 = some (.compare 7 8) ∧
  decodeTableWord 32 0x0B030004 = some (.jump .above 4) ∧
  decodeTableWord 32 0x0E040300 = some (.logicalnot 4 3) ∧
  decodeTableWord 32 0xFF123456 = some .halt ∧
  decodeTableWord 32 0x3700FF12 = none

/-- R77: the seven condition codes, their assembler tokens, and what each tests on the signed CMP; 7 to 255 never hold. -/
def Obligations.ConditionCodesTestTheSignedCompareRegister : Prop :=
  (∀ cmp : Word,
    condHolds (decodeCond 0) cmp = true ∧
    (condHolds (decodeCond 1) cmp = true ↔ cmp.toInt = 0) ∧
    (condHolds (decodeCond 2) cmp = true ↔ cmp.toInt ≠ 0) ∧
    (condHolds (decodeCond 3) cmp = true ↔ cmp.toInt > 0) ∧
    (condHolds (decodeCond 4) cmp = true ↔ cmp.toInt ≥ 0) ∧
    (condHolds (decodeCond 5) cmp = true ↔ cmp.toInt < 0) ∧
    (condHolds (decodeCond 6) cmp = true ↔ cmp.toInt ≤ 0) ∧
    ∀ k : Byte, 7 ≤ k.toNat → condHolds (decodeCond k) cmp = false) ∧
  (parseCondition "unconditional".toList = .ok (decodeCond 0) ∧ parseCondition "equal".toList = .ok (decodeCond 1) ∧
    parseCondition "notequal".toList = .ok (decodeCond 2) ∧ parseCondition "above".toList = .ok (decodeCond 3) ∧
    parseCondition "aboveorequal".toList = .ok (decodeCond 4) ∧ parseCondition "below".toList = .ok (decodeCond 5) ∧
    parseCondition "beloworequal".toList = .ok (decodeCond 6))

/-- A Jump with a condition code 7 to 255 is a legal instruction that raises nothing and only advances IC by 1 (R81). That the
advance of 32767 wraps is the spec's decision D9 (log 10). -/
def Obligations.ReservedConditionCodesNeverJump : Prop :=
  ∀ (k h l : Byte) (s : State), 7 ≤ k.toNat →
    decode ⟨0x0B, k, h, l⟩ = .ok (.jump (.reserved k) (join h l)) ∧
    exec (.jump (.reserved k) (join h l)) s = .next { s with ic := s.ic + 1, result := some .ok }

/-- R75: the Load immediate is the signed 16-bit pattern data2:data3; every `i16` value is encodable, through `split`. -/
def Obligations.LoadImmediateIsTheSignedPattern : Prop :=
  (∀ d h l : Byte,
    decode ⟨0x00, d, h, l⟩ = .ok (.load d (join h l)) ∧
    (join h l).toInt =
      if h.toNat * 256 + l.toNat ≥ 32768 then (h.toNat * 256 + l.toNat : Int) - 65536 else h.toNat * 256 + l.toNat) ∧
  ∀ (d : Byte) (v : Word),
    encode (.load d v) = ⟨0x00, d, (split v).1, (split v).2⟩ ∧
    decode ⟨0x00, d, (split v).1, (split v).2⟩ = .ok (.load d v)

/-- The Jump target is the signed 16-bit pattern data2:data3, an absolute address; every value is encodable; after a taken jump to
a negative target the next step raises `InvalidAddress` (R76). How an error is answered: D11, log 2. -/
def Obligations.JumpTargetIsAbsoluteAndMayBeNegative : Prop :=
  (∀ k h l : Byte,
    decode ⟨0x0B, k, h, l⟩ = .ok (.jump (decodeCond k) (join h l)) ∧
    (join h l).toInt =
      if h.toNat * 256 + l.toNat ≥ 32768 then (h.toNat * 256 + l.toNat : Int) - 65536 else h.toNat * 256 + l.toNat) ∧
  (∀ t : Word, join (split t).1 (split t).2 = t) ∧
  ∀ (k : Cond) (t : Word) (s : State), condHolds k s.cmp = true →
    exec (.jump k t) s = .next { s with ic := t, result := some .ok } ∧
    ∀ w words, t.toInt < 0 → s.halted = false → s.prog = some (w :: words) →
      step { s with ic := t, result := some .ok } =
        raisedAnswer (.invalidAddress t) { s with ic := t, result := some .ok }

/-- The codec of R9: `join` is the signed 16-bit number with the given bytes, `split` gives a value's two bytes (the arithmetic
shift by 8, truncated, and the low 8 bits), and the two are exact inverses. -/
def Obligations.CodecIsAnExactInversePair : Prop :=
  (∀ h l : Byte, join h l = wrap16 (l.toNat + (wrap16 (h.toNat * 256)).toInt)) ∧
  (∀ v : Word, (split v).1 = BitVec.ofInt 8 (v.toInt.fdiv 256) ∧ (split v).2.toNat = v.toNat % 256) ∧
  (∀ v : Word, join (split v).1 (split v).2 = v) ∧
  ∀ h l : Byte, split (join h l) = (h, l)

/-- R71: decoding a word's bytes is total and re-encoding gives the same bytes; every word is fetched as it is; only the opcode byte decides whether a word
names an instruction; the binary-form decode refuses no word. -/
def Obligations.WordDecodeIsTotalAndRoundTrips : Prop :=
  (∀ b0 b1 b2 b3 : Byte, ∃ w, InstrWord.ofBytes [b0, b1, b2, b3] = some w ∧ w.toBytes = [b0, b1, b2, b3]) ∧
  (∀ bits : BitVec 32, (InstrWord.ofBits bits).toBits = bits) ∧
  (∀ (s : State) (w : InstrWord), AtWord s w → s.fetch = .ok w) ∧
  (∀ w w' : InstrWord, w.opcode = w'.opcode → ((∃ i, decode w = .ok i) ↔ ∃ i, decode w' = .ok i)) ∧
  ∀ words : List InstrWord, decodeProgram (encodeProgram words) = .ok words

/-- The binary form of R52: a length that is no multiple of 4 fails with `InstructionLength`; otherwise word `a` is made of the
bytes at 4a to 4a+3, there are a quarter as many words as bytes, and re-encoding gives the buffer back. -/
def Obligations.BinaryFormDecodesFourBytesAWord : Prop :=
  ∀ bytes : List Byte,
    (bytes.length % 4 ≠ 0 → decodeProgram bytes = .error (.instructionLength bytes.length)) ∧
    (bytes.length % 4 = 0 → ∃ words, decodeProgram bytes = .ok words ∧ words.length = bytes.length / 4 ∧
      encodeProgram words = bytes ∧
      ∀ a w, words[a]? = some w →
        bytes[4 * a]? = some w.opcode ∧ bytes[4 * a + 1]? = some w.data1 ∧ bytes[4 * a + 2]? = some w.data2 ∧
          bytes[4 * a + 3]? = some w.data3)

/-- `wrap16` of R8: its value is in -32768..32767, congruent to `n` modulo 65536, and the only such value. -/
def Obligations.WrapGivesTheCongruentSignedValue : Prop :=
  ∀ n : Int,
    -32768 ≤ (wrap16 n).toInt ∧ (wrap16 n).toInt ≤ 32767 ∧ (wrap16 n).toInt % 65536 = n % 65536 ∧
    ∀ r : Int, -32768 ≤ r → r ≤ 32767 → r % 65536 = n % 65536 → r = (wrap16 n).toInt

/-- R31: a step taken while HALTED is true changes nothing but the step result, which is NoOp, whatever the program. -/
def Obligations.HaltedStepIsNoOp : Prop :=
  ∀ s : State, s.halted = true → step s = .next { s with result := some .noOp }

/-- With no program, or a program of no words, the step raises `EmptyProgram` (R32). How an error is answered: D11, log 2. -/
def Obligations.StepWithoutProgramRaisesEmptyProgram : Prop :=
  ∀ s : State, s.halted = false → s.prog = none ∨ s.prog = some [] → step s = raisedAnswer .emptyProgram s

/-- With a program, a counter outside 0..N-1 raises `InvalidAddress(IC)`; otherwise the word at IC is fetched (R33). How an error
is answered: D11, log 2. -/
def Obligations.CounterOutsideTheProgramRaisesInvalidAddress : Prop :=
  ∀ (s : State) (words : List InstrWord), s.halted = false → s.prog = some words → words ≠ [] →
    (s.ic.toInt < 0 ∨ (words.length : Int) ≤ s.ic.toInt → step s = raisedAnswer (.invalidAddress s.ic) s) ∧
    (0 ≤ s.ic.toInt ∧ s.ic.toInt < words.length →
      ∃ w, words[s.ic.toInt.toNat]? = some w ∧ s.fetch = .ok w)

/-- Executing a word whose opcode is 16 to 254 raises `InvalidOpcode` and changes no state; decoding any program that holds it,
and loading it from its words or its binary form, raises nothing (R80; the load port takes up to 32768 words, D21). How an
error is answered: D11, log 2. -/
def Obligations.IllegalOpcodeRaisesWhenExecuted : Prop :=
  ∀ w : InstrWord, 16 ≤ w.opcode.toNat → w.opcode.toNat ≤ 254 →
    (∀ s : State, AtWord s w → step s = raisedAnswer (.invalidOpcode w.opcode) s) ∧
    ∀ words : List InstrWord, w ∈ words →
      decodeProgram (encodeProgram words) = .ok words ∧
      ∀ s : State, words.length ≤ 32768 →
        s.loadProgram words = ({ s with prog := some words }, .loaded) ∧
        s.loadBinary (encodeProgram words) = ({ s with prog := some words }, .loaded)

/-- Where the word at IC decodes to an instruction, the step is exactly that instruction's `exec` on the same state: the check of
HALTED, the fetch and the decode add nothing, and `exec` itself ends the step (R34, R35). -/
def Obligations.StepRunsTheDecodedInstruction : Prop :=
  ∀ (s : State) (w : InstrWord) (i : Instr), AtWord s w → decode w = .ok i → step s = exec i s

/-- R35 and R152: an instruction that completes leaves IC at the target of a taken jump, and at IC + 1 otherwise, after Halt too.
That the increment of 32767 wraps is the spec's decision D9. -/
def Obligations.CompletedInstructionSetsTheCounter : Prop :=
  ∀ (i : Instr) (s t : State), exec i s = .next t → t.result = some .ok → t.ic = nextIc i s

/-- A step that raises (R36) changes none of the registers, CMP, IC, HALTED, the program, the tables and the subscriber, and
calls no channel and no subscriber (no event, no reply used). That the error goes to the fault log is the spec's decision D11
(R190) and the model's (log 2). -/
def Obligations.RaisingStepChangesNoArchitecturalState : Prop :=
  ∀ (s t : State) (e : Fault), step s = .next t → t.result = some (.error e) →
    SameCore s t ∧ t.events = s.events ∧ t.replies = s.replies ∧ t.faultLog = s.faultLog ++ [e]

/-- Every step that has a next state reports exactly one result (R40 (7), R184, R185): NoOp where HALTED was true, else Ok with
nothing logged, or one error, logged. -/
def Obligations.StepReportsOneResult : Prop :=
  ∀ s t : State, step s = .next t →
    (s.halted = true → t.result = some .noOp ∧ t.faultLog = s.faultLog) ∧
    (s.halted = false →
      (t.result = some .ok ∧ t.faultLog = s.faultLog) ∨
        ∃ e, t.result = some (.error e) ∧ t.faultLog = s.faultLog ++ [e])

/-- R24: among instructions only Compare writes CMP, and only a Jump with condition code 1 to 6 reads it, so what a completing
Compare leaves, CMP included, does not depend on the CMP before; reset also writes it. -/
def Obligations.CmpIsWrittenByCompareAndReadByConditionalJumps : Prop :=
  (∀ (i : Instr) (s t : State), exec i s = .next t → (∀ a b, i ≠ .compare a b) → t.cmp = s.cmp) ∧
  (∀ (i : Instr) (s : State) (v : Word), readsCmp i = false →
    forgetCmp (exec i { s with cmp := v }) = forgetCmp (exec i s)) ∧
  (∀ (a b : Byte) (s t : State) (v : Word), exec (.compare a b) s = .next t → t.result = some .ok →
    exec (.compare a b) { s with cmp := v } = .next t) ∧
  ∀ (s : State) (v : Word), ({ s with cmp := v } : State).resetRequest = s.resetRequest

/-- No instruction writes the program store, the channel tables or the subscriber slot (R27, R28, R29, R64). -/
def Obligations.NoInstructionWritesProgramTablesOrSubscriber : Prop :=
  ∀ (i : Instr) (s t : State), exec i s = .next t →
    t.prog = s.prog ∧ t.inBound = s.inBound ∧ t.outBound = s.outBound ∧ t.haltSub = s.haltSub

/-- R26: once HALTED is true steps are no-ops; only Halt sets it; it is cleared by reset and by the clear-halt port and by no
other request of the host. -/
def Obligations.OnlyHaltSetsHaltedAndOnlyTheHostClearsIt : Prop :=
  (∀ s t : State, s.halted = true → step s = .next t → SameCore s t) ∧
  (∀ (i : Instr) (s t : State), exec i s = .next t → t.halted = (s.halted || decide (i = .halt))) ∧
  (∀ s : State, s.resetRequest.halted = false ∧ s.clearHalt.halted = false) ∧
  ∀ (q : Request) (s t : State) (r : Response), serve q s = .next (t, r) → s.halted = true → t.halted = false →
    q = .reset ∨ q = .clearHalt

/-- R23: an instruction that completes writes its one destination register and no other register changes; it reads no register
but its sources: two states that agree on those get the same answer, but for the registers it does not touch. -/
def Obligations.RegistersReadAndWrittenAreTheOnesNamed : Prop :=
  (∀ (i : Instr) (s t : State) (r : Byte), exec i s = .next t → destOf i ≠ some r → t.reg r = s.reg r) ∧
  (∀ (i : Instr) (s t : State) (d : Byte), exec i s = .next t → t.result = some .ok → destOf i = some d →
    t.reg d ≠ none) ∧
  ∀ (i : Instr) (s : State) (regs : Vector (Option Word) 256),
    (∀ r ∈ sourcesOf i, ({ s with regs := regs } : State).reg r = s.reg r) →
      AgreeButRegs (destOf i) (exec i s) (exec i { s with regs := regs })

/-- A register that holds a value holds one after every step, and after every request of the host but reset (R22). -/
def Obligations.WrittenRegistersStayWritten : Prop :=
  (∀ (s t : State) (r : Byte), step s = .next t → s.reg r ≠ none → t.reg r ≠ none) ∧
  ∀ (q : Request) (s t : State) (a : Response) (r : Byte), q ≠ .reset → serve q s = .next (t, a) → s.reg r ≠ none →
    t.reg r ≠ none

/-- Every step keeps the invariant: the program store's form, and the fault log's and the result port's agreement. -/
def Obligations.StepsKeepTheInvariant : Prop :=
  ∀ s t : State, Consistent s → step s = .next t → Consistent t

/-- The invariant holds at reset. -/
def Obligations.ResetMeetsTheInvariant : Prop := Consistent State.reset

/-- Every request of the host keeps the invariant: a program that is too long is not loaded (R42; D21). -/
def Obligations.HostRequestsKeepTheInvariant : Prop :=
  ∀ (q : Request) (s t : State) (r : Response), Consistent s → serve q s = .next (t, r) → Consistent t

/-- The events of one instruction (R63, R111, R112, R170): an Input that completes adds `In(c, v)` with the value its register
holds after, an Output adds `Out(c, v)` with the value of its source, a Halt adds `HaltNotify` where a subscriber is
registered; nothing else adds an event. -/
def Obligations.EventsAreThoseOfTheInstruction : Prop :=
  ∀ (i : Instr) (s t : State), exec i s = .next t →
    (t.result ≠ some .ok → t.events = s.events) ∧
    (∀ d c, i = .input d c → t.result = some .ok → ∃ v, t.reg d = some v ∧ t.events = s.events ++ [.input c v]) ∧
    (∀ src c, i = .output src c → t.result = some .ok →
      ∃ v, s.reg src = some v ∧ t.events = s.events ++ [.output c v]) ∧
    (i = .halt → t.events = s.events ++ if s.haltSub then [.haltNotify] else []) ∧
    ((∀ d c, i ≠ .input d c) → (∀ src c, i ≠ .output src c) → i ≠ .halt → t.events = s.events)

/-- No step answers a fault: execution errors are taken (log 2). A step is refused only where the environment's next reply is a
callable that fails or calls back (log 6; D23, D29), and then under that name. -/
def Obligations.OnlyMisbehavingCallablesAreRefused : Prop :=
  (∀ (s : State) (e : Fault), step s ≠ .fault e) ∧
  ∀ (s : State) (r : Refusal), step s = .refused r →
    (r = .callableFailed ∧ s.replies.head? = some .fails) ∨
      (r = .callbackReentered ∧ s.replies.head? = some .callsBack)

/-- A producer, consumer or subscriber that fails, or that calls back into the core, makes the run refused (R48, R191; the
spec's decisions D23 and D29; log 6). -/
def Obligations.MisbehavingCallableIsRefused : Prop :=
  ∀ (s : State) (rest : List Reply) (d c src : Byte) (v : Word),
    (s.inputBound c = true →
      (s.replies = .fails :: rest → exec (.input d c) s = .refused .callableFailed) ∧
      (s.replies = .callsBack :: rest → exec (.input d c) s = .refused .callbackReentered)) ∧
    (s.outputBound c = true → s.reg src = some v →
      (s.replies = .fails :: rest → exec (.output src c) s = .refused .callableFailed) ∧
      (s.replies = .callsBack :: rest → exec (.output src c) s = .refused .callbackReentered)) ∧
    (s.haltSub = true →
      (s.replies = .fails :: rest → exec .halt s = .refused .callableFailed) ∧
      (s.replies = .callsBack :: rest → exec .halt s = .refused .callbackReentered))

/-- LOAD completes in every state: the immediate in register `d`, IC + 1, nothing else changed (R110, R35; D9). -/
def Obligations.LoadWritesItsImmediate : Prop :=
  ∀ (d : Byte) (imm : Word) (s : State), exec (.load d imm) s = .next (advanced (withValue s d imm))

/-- INPUT (R111): an unbound channel raises; a bound one gives its value to register `d` and the event `In(c, v)`, where `v` is
the environment's next reply or, with none left, the free value (D12; log 4, log 6), whatever it is. -/
def Obligations.InputReadsItsChannel : Prop :=
  ∀ (d c : Byte) (s : State),
    (s.inputBound c = false → exec (.input d c) s = raisedAnswer (.invalidChannel .input c) s) ∧
    (s.inputBound c = true → s.replies = [] →
      exec (.input d c) s =
        .next (advanced { withValue s d (Config.inputOracle s.events c) with
          events := s.events ++ [.input c (Config.inputOracle s.events c)] })) ∧
    ∀ v rest, s.inputBound c = true → s.replies = .returns v :: rest →
      exec (.input d c) s =
        .next (advanced { withValue s d v with events := s.events ++ [.input c v], replies := rest })

/-- OUTPUT (R112): an unbound channel raises before the register is read; then an unwritten source raises (D10); else the one
event `Out(c, v)` with the source's value, no register changed. -/
def Obligations.OutputWritesItsChannel : Prop :=
  ∀ (src c : Byte) (s : State),
    (s.outputBound c = false → exec (.output src c) s = raisedAnswer (.invalidChannel .output c) s) ∧
    (s.outputBound c = true → s.reg src = none →
      exec (.output src c) s = raisedAnswer (.uninitializedRegister src) s) ∧
    (∀ v, s.outputBound c = true → s.reg src = some v → s.replies = [] →
      exec (.output src c) s = .next (advanced { s with events := s.events ++ [.output c v] })) ∧
    ∀ v x rest, s.outputBound c = true → s.reg src = some v → s.replies = .returns x :: rest →
      exec (.output src c) s =
        .next (advanced { s with events := s.events ++ [.output c v], replies := rest })

/-- ADD (R120, R121): the wrapped sum. Error order D10, unwritten reads D1. -/
def Obligations.AddWritesTheWrappedSum : Prop :=
  FollowsFrame .add fun va vb => .ok (wrap16 (va.toInt + vb.toInt))

/-- SUBTRACT (R120, R122): the wrapped difference. Error order D10, unwritten reads D1. -/
def Obligations.SubtractWritesTheWrappedDifference : Prop :=
  FollowsFrame .subtract fun va vb => .ok (wrap16 (va.toInt - vb.toInt))

/-- MULTIPLY (R120, R123): the wrapped product. Error order D10, unwritten reads D1. -/
def Obligations.MultiplyWritesTheWrappedProduct : Prop :=
  FollowsFrame .multiply fun va vb => .ok (wrap16 (va.toInt * vb.toInt))

/-- DIVIDE (R120, R124): the quotient rounded toward zero and wrapped (the spec's decision D3), `DivideByZero` for divisor 0
(D2), after both sources are read (D10). -/
def Obligations.DivideWritesTheTruncatedQuotient : Prop :=
  FollowsFrame .divide fun va vb =>
    if vb = 0 then .error .divideByZero else .ok (wrap16 (va.toInt.tdiv vb.toInt))

/-- MODULUS (R120, R125): the remainder of the truncating division (the spec's decision D3), `DivideByZero` for divisor 0 (D2),
after both sources are read (D10). -/
def Obligations.ModulusWritesTheTruncatedRemainder : Prop :=
  FollowsFrame .modulus fun va vb =>
    if vb = 0 then .error .divideByZero else .ok (wrap16 (va.toInt - vb.toInt * va.toInt.tdiv vb.toInt))

/-- LEFTSHIFT (R120, R140, R142): for counts 0 to 15 the wrapped product with the power of two (the spec's decision D4); for other
counts the instruction completes with the free value (D5; log 5), whatever it is. -/
def Obligations.LeftshiftMultipliesByThePowerOfTwo : Prop :=
  FollowsFrame .leftshift fun va vb =>
    .ok (if 0 ≤ vb.toInt ∧ vb.toInt ≤ 15 then wrap16 (va.toInt * 2 ^ vb.toNat) else Config.shiftOutOfRange .left va vb)

/-- RIGHTSHIFT (R120, R141, R142): for counts 0 to 15 the quotient by the power of two rounded toward minus infinity (the spec's
decision D4); for other counts the instruction completes with the free value (D5; log 5), whatever it is. -/
def Obligations.RightshiftDividesByThePowerOfTwo : Prop :=
  FollowsFrame .rightshift fun va vb =>
    .ok (if 0 ≤ vb.toInt ∧ vb.toInt ≤ 15 then wrap16 (va.toInt.fdiv (2 ^ vb.toNat))
      else Config.shiftOutOfRange .right va vb)

/-- LOGICALAND, LOGICALOR and LOGICALXOR (R120, R160, R161, R163): each bit of the result is the and, or, exclusive or of the
sources' bits (bitwise is the spec's decision D6). -/
def Obligations.LogicalOperationsAreBitwise : Prop :=
  FollowsFrame .logicaland (fun va vb => .ok (BitVec.ofFnLE fun n : Fin 16 => va[n] && vb[n])) ∧
  FollowsFrame .logicalor (fun va vb => .ok (BitVec.ofFnLE fun n : Fin 16 => va[n] || vb[n])) ∧
  FollowsFrame .logicalxor (fun va vb => .ok (BitVec.ofFnLE fun n : Fin 16 => va[n] ^^ vb[n]))

/-- LOGICALNOT (R162): the bitwise complement, which is -va - 1, in the destination; an unwritten source raises (D1). -/
def Obligations.LogicalnotWritesTheComplement : Prop :=
  ∀ (d a : Byte) (s : State),
    (s.reg a = none → exec (.logicalnot d a) s = raisedAnswer (.uninitializedRegister a) s) ∧
    ∀ va, s.reg a = some va →
      exec (.logicalnot d a) s = .next (advanced (withValue s d (wrap16 (-va.toInt - 1))))

/-- COMPARE (R150): CMP is the wrapped difference and no register changes; unwritten sources raise (D1), the first one first
(D10). -/
def Obligations.CompareWritesTheWrappedDifference : Prop :=
  ∀ (a b : Byte) (s : State),
    (s.reg a = none → exec (.compare a b) s = raisedAnswer (.uninitializedRegister a) s) ∧
    (∀ va, s.reg a = some va → s.reg b = none →
      exec (.compare a b) s = raisedAnswer (.uninitializedRegister b) s) ∧
    ∀ va vb, s.reg a = some va → s.reg b = some vb →
      exec (.compare a b) s = .next (advanced { s with cmp := wrap16 (va.toInt - vb.toInt) })

/-- JUMP (R152): completes in every state, at the target where the condition holds on CMP and at IC + 1 where it does not (D9 for
the wrap), with nothing else changed; a target outside the program is no error at the jump. -/
def Obligations.JumpGoesToItsTargetWhereTheConditionHolds : Prop :=
  ∀ (k : Cond) (target : Word) (s : State),
    exec (.jump k target) s =
      .next { s with ic := if condHolds k s.cmp then target else s.ic + 1, result := some .ok }

/-- HALT (R170): HALTED is set, IC + 1, and the subscriber, where one is registered, is notified once; no register and not CMP
change. -/
def Obligations.HaltSetsHaltedAndNotifiesOnce : Prop :=
  ∀ s : State,
    (s.haltSub = false → exec .halt s = .next (advanced { s with halted := true })) ∧
    (s.haltSub = true → s.replies = [] →
      exec .halt s = .next (advanced { s with halted := true, events := s.events ++ [.haltNotify] })) ∧
    ∀ v rest, s.haltSub = true → s.replies = .returns v :: rest →
      exec .halt s =
        .next (advanced { s with halted := true, events := s.events ++ [.haltNotify], replies := rest })

/-- R125: for every dividend and every divisor but 0, the quotient q of Divide and the remainder r of Modulus meet
wrap16(q * vb + r) = va; r is smaller than the divisor in magnitude and has the dividend's sign or is 0 (D3). -/
def Obligations.QuotientAndRemainderMeetTheDivisionIdentity : Prop :=
  ∀ va vb : Word, vb ≠ 0 → ∃ q r, divideOp va vb = .ok q ∧ modulusOp va vb = .ok r ∧
    wrap16 (q.toInt * vb.toInt + r.toInt) = va ∧ r.toInt.natAbs < vb.toInt.natAbs ∧
    (0 ≤ va.toInt → 0 ≤ r.toInt) ∧ (va.toInt ≤ 0 → r.toInt ≤ 0)

/-- The arithmetic of R121 to R125, R140, R141 and R150 is that of 16-bit two's-complement words: "matching native fixed-width
integer semantics" (R120; D3, D4 for division and shifts). -/
def Obligations.ArithmeticIsTwosComplement : Prop :=
  ∀ va vb : Word,
    addOp va vb = .ok (va + vb) ∧ subtractOp va vb = .ok (va - vb) ∧ multiplyOp va vb = .ok (va * vb) ∧
    difference va vb = va - vb ∧
    (vb ≠ 0 → divideOp va vb = .ok (va.sdiv vb) ∧ modulusOp va vb = .ok (va.srem vb)) ∧
    (vb.toNat ≤ 15 → leftshiftOp va vb = .ok (va <<< vb.toNat) ∧ rightshiftOp va vb = .ok (va.sshiftRight vb.toNat))

/-- R150, R151: CMP is 0 exactly when the compared values are equal; exactly one of Above, Equal and Below holds; the other three
are their negations; and where the difference does not wrap, Above and Below are the signed order of the compared values. -/
def Obligations.ConditionsOrderTheComparedValues : Prop :=
  ∀ va vb : Word,
    (difference va vb = 0 ↔ va = vb) ∧
    (∀ cmp : Word,
      ((condHolds .above cmp).toNat + (condHolds .equal cmp).toNat + (condHolds .below cmp).toNat = 1) ∧
      condHolds .aboveOrEqual cmp = !condHolds .below cmp ∧ condHolds .belowOrEqual cmp = !condHolds .above cmp ∧
      condHolds .notEqual cmp = !condHolds .equal cmp) ∧
    (-32768 ≤ va.toInt - vb.toInt → va.toInt - vb.toInt ≤ 32767 →
      (condHolds .above (difference va vb) = true ↔ va.toInt > vb.toInt) ∧
      (condHolds .below (difference va vb) = true ↔ va.toInt < vb.toInt))

/-- Reset (R210): every register Unwritten, CMP 0 (the spec's decision D7), IC 0, HALTED false, both tables empty, no subscriber,
the program kept; no channel and no subscriber is called. -/
def Obligations.ResetClearsAllButTheProgram : Prop :=
  ∀ s : State, ∃ t, serve .reset s = .next (t, .done) ∧
    (∀ r, t.reg r = none) ∧ t.cmp = 0 ∧ t.ic = 0 ∧ t.halted = false ∧
    (∀ c, t.inputBound c = false ∧ t.outputBound c = false) ∧ t.haltSub = false ∧ t.prog = s.prog ∧
    t.events = s.events ∧ t.replies = s.replies

/-- The state at power-on (R49, R211; the spec's decisions D7 and D8): the reset state with no program. -/
def Obligations.PowerOnIsTheResetStateWithNoProgram : Prop :=
  State.reset.prog = none ∧ (∀ r, State.reset.reg r = none) ∧ State.reset.cmp = 0 ∧ State.reset.ic = 0 ∧
    State.reset.halted = false ∧ (∀ c, State.reset.inputBound c = false ∧ State.reset.outputBound c = false) ∧
    State.reset.haltSub = false ∧ State.reset.resetRequest = State.reset

/-- No request of the host but a step, a run and a reset writes a register or CMP (R41 to R46; C6 and the spec's decision D25);
reads change nothing. -/
def Obligations.HostWritesNoRegisterAndNotCmp : Prop :=
  (∀ (q : Request) (s t : State) (a : Response), serve q s = .next (t, a) → q ≠ .step → (∀ n, q ≠ .run n) → q ≠ .reset →
    t.regs = s.regs ∧ t.cmp = s.cmp ∧ t.events = s.events ∧ t.faultLog = s.faultLog) ∧
  ∀ (s : State) (i : Byte),
    serve (.readReg i) s = .next (s, .register (s.reg i)) ∧ serve .readCmp s = .next (s, .word s.cmp) ∧
      serve .readIc s = .next (s, .word s.ic) ∧ serve .readHalted s = .next (s, .flag s.halted)

/-- The load port (R42, R52, R215), from words and from the binary form: up to 32768 words become the program and IC and
everything else is kept; a longer sequence is refused and changes nothing (the spec's decision D21), and so is a buffer whose
length is no multiple of 4. -/
def Obligations.LoadPortKeepsTheCounter : Prop :=
  ∀ s : State,
    (∀ words : List InstrWord, words.length ≤ 32768 →
      serve (.loadProgram words) s = .next ({ s with prog := some words }, .load .loaded) ∧
      serve (.loadBinary (encodeProgram words)) s = .next ({ s with prog := some words }, .load .loaded)) ∧
    (∀ words : List InstrWord, 32768 < words.length →
      serve (.loadProgram words) s = .next (s, .load (.tooLong words.length)) ∧
      serve (.loadBinary (encodeProgram words)) s = .next (s, .load (.tooLong words.length))) ∧
    ∀ bytes : List Byte, bytes.length % 4 ≠ 0 →
      serve (.loadBinary bytes) s = .next (s, .load (.badForm (.instructionLength bytes.length)))

/-- Each of these ports writes one piece of state, and the rest of the state is as before: bind an input or output channel (R45),
subscribe (R46), set IC (R43), clear halt (R44). A second registration leaves the bit set (the spec's decision D22); that set IC
and clear halt are ports is its decision D25. -/
def Obligations.PortsWriteOnePieceOfState : Prop :=
  ∀ s : State,
    (∀ c : Byte, ∃ t u,
      serve (.bindInput c) s = .next (t, .done) ∧ serve (.bindOutput c) s = .next (u, .done) ∧
      { t with inBound := s.inBound } = s ∧ { u with outBound := s.outBound } = s ∧
      ∀ c' : Byte, t.inputBound c' = (decide (c' = c) || s.inputBound c') ∧
        u.outputBound c' = (decide (c' = c) || s.outputBound c')) ∧
    serve .subscribe s = .next ({ s with haltSub := true }, .done) ∧
    (∀ v : Word, serve (.setIc v) s = .next ({ s with ic := v }, .done)) ∧
    serve .clearHalt s = .next ({ s with halted := false }, .done)

/-- R37, R38: a run that has ended ended halted, with HALTED true, or in the error its last step raised; more steps do not change
how it ended; a run started halted ends at once with no effect. -/
def Obligations.RunEndsHaltedOrFaulted : Prop :=
  (∀ k s how t, runFor k s = .ended how t →
    (how = .halted ∧ t.halted = true) ∨ ∃ e, how = .faulted e ∧ t.result = some (.error e)) ∧
  (∀ k n s how t, runFor k s = .ended how t → runFor (k + n) s = .ended how t) ∧
  ∀ k s, s.halted = true → runFor k s = .ended .halted s

/-- R38, R183, R189: a run that ends in an error leaves the architectural state and the event history as of just before the
failing step. -/
def Obligations.FaultedRunLeavesTheStateBeforeTheFailingStep : Prop :=
  ∀ k s e t, runFor k s = .ended (.faulted e) t →
    ∃ j u, j < k ∧ runFor j s = .running u ∧ step u = .next t ∧ SameCore u t ∧ u.events = t.events

/-- An unconditional jump to its own address is a run that never ends (R37, R152). -/
def Obligations.JumpToItselfRunsForever : Prop :=
  ∀ (s : State) (w : InstrWord), AtWord s w → decode w = .ok (.jump .unconditional s.ic) → RunForever s

/-- R98: the words of the instruction lines, in address order, four bytes each; the buffer's length is four times the number of
lines that are neither blank, comment nor label, and the buffer decodes to as many words. -/
def Obligations.CompiledBufferHasFourBytesAnInstruction : Prop :=
  ∀ (source : Text) (bytes : List Byte), compile source = .ok bytes →
    bytes.length = 4 * (instructionLines (preprocess source)).length ∧
    ∃ words labels, labelPass (preprocess source) 0 [] = .ok labels ∧ bytes = words.flatMap InstrWord.toBytes ∧
      decodeProgram bytes = .ok words ∧ words.length = (instructionLines (preprocess source)).length ∧
      ∀ (a : Nat) (line : SourceLine), (instructionLines (preprocess source))[a]? = some line →
        ∃ w, words[a]? = some w ∧ translate labels line = .ok w

/-- R97: the slots each text form's operands go to, whatever labels the source has. `A`, `B`, `D` stand for register or channel
tokens, `V` for an immediate, `K` for a condition name, all of which parse; `L` for a label the jump map has. The fill of ignored
slots is 0 (R83; D16). -/
def Obligations.TextOperandsGoToTheirSlots : Prop :=
  ∀ (labels : JumpMap) (line A B D : Text) (a b d : Byte),
    parseByte A = .ok a → parseByte B = .ok b → parseByte D = .ok d →
    (∃ f, mnemonics.lookup "load".toList = some f ∧ ∀ V v, parseImmediate V = .ok v →
      (buildOperands labels line f [V, D]).map encode = .ok ⟨0, d, (split v).1, (split v).2⟩) ∧
    (∃ f, mnemonics.lookup "input".toList = some f ∧
      (buildOperands labels line f [D, A]).map encode = .ok ⟨1, d, a, 0⟩) ∧
    (∃ f, mnemonics.lookup "output".toList = some f ∧
      (buildOperands labels line f [D, A]).map encode = .ok ⟨2, d, a, 0⟩) ∧
    (∀ p ∈ [("add".toList, 3), ("subtract".toList, 4), ("multiply".toList, 5), ("divide".toList, 6),
        ("modulus".toList, 7), ("leftshift".toList, 8), ("rightshift".toList, 9), ("logicaland".toList, 12),
        ("logicalor".toList, 13), ("logicalxor".toList, (15 : Byte))],
      ∃ f, mnemonics.lookup p.1 = some f ∧
        (buildOperands labels line f [A, B, D]).map encode = .ok ⟨p.2, d, a, b⟩) ∧
    (∃ f, mnemonics.lookup "compare".toList = some f ∧
      (buildOperands labels line f [A, B]).map encode = .ok ⟨10, a, b, 0⟩) ∧
    (∃ f, mnemonics.lookup "jump".toList = some f ∧ ∀ K L k address, parseCondition K = .ok k →
      labels.lookup L = some address → address ≤ 32767 →
      (buildOperands labels line f [K, L]).map encode =
        .ok ⟨11, encodeCond k, (split (BitVec.ofNat 16 address)).1, (split (BitVec.ofNat 16 address)).2⟩) ∧
    (∃ f, mnemonics.lookup "logicalnot".toList = some f ∧
      (buildOperands labels line f [A, D]).map encode = .ok ⟨14, d, a, 0⟩) ∧
    (∃ f, mnemonics.lookup "halt".toList = some f ∧
      (buildOperands labels line f []).map encode = .ok ⟨255, 0, 0, 0⟩)

/-- R87, R88: a label resolves to the number of instruction lines before it, which is the address of the next real instruction,
or past the end. -/
def Obligations.LabelResolvesToTheNextInstruction : Prop :=
  ∀ (before after : List SourceLine) (label : SourceLine) (labels : JumpMap), isLabel label = true →
    labelPass (before ++ label :: after) 0 [] = .ok labels →
    labels.lookup label.text = some (instructionLines before).length
end

