-- ==== Sys2Proof/Laws/State.lean ====
section
/-! SUPPORT. One lemma per field of State and per update: what the update leaves in that field. Then the register file and the
channel tables read after a write. -/

namespace Sys2Proof.Machine

variable (s : State)

@[simp] theorem State.setReg_regs (i : Byte) (v : Word) : (s.setReg i v).regs = s.regs.set i.toNat (some v) i.isLt := rfl
@[simp] theorem State.setReg_cmp (i : Byte) (v : Word) : (s.setReg i v).cmp = s.cmp := rfl
@[simp] theorem State.setReg_ic (i : Byte) (v : Word) : (s.setReg i v).ic = s.ic := rfl
@[simp] theorem State.setReg_halted (i : Byte) (v : Word) : (s.setReg i v).halted = s.halted := rfl
@[simp] theorem State.setReg_prog (i : Byte) (v : Word) : (s.setReg i v).prog = s.prog := rfl
@[simp] theorem State.setReg_inBound (i : Byte) (v : Word) : (s.setReg i v).inBound = s.inBound := rfl
@[simp] theorem State.setReg_outBound (i : Byte) (v : Word) : (s.setReg i v).outBound = s.outBound := rfl
@[simp] theorem State.setReg_haltSub (i : Byte) (v : Word) : (s.setReg i v).haltSub = s.haltSub := rfl
@[simp] theorem State.setReg_result (i : Byte) (v : Word) : (s.setReg i v).result = s.result := rfl
@[simp] theorem State.setReg_events (i : Byte) (v : Word) : (s.setReg i v).events = s.events := rfl
@[simp] theorem State.setReg_faultLog (i : Byte) (v : Word) : (s.setReg i v).faultLog = s.faultLog := rfl
@[simp] theorem State.setReg_replies (i : Byte) (v : Word) : (s.setReg i v).replies = s.replies := rfl
@[simp] theorem State.setReg_inputBound (i : Byte) (v : Word) (j : Byte) : (s.setReg i v).inputBound j = s.inputBound j := rfl
@[simp] theorem State.setReg_outputBound (i : Byte) (v : Word) (j : Byte) : (s.setReg i v).outputBound j = s.outputBound j := rfl

@[simp] theorem State.setCmp_regs (v : Word) : (s.setCmp v).regs = s.regs := rfl
@[simp] theorem State.setCmp_cmp (v : Word) : (s.setCmp v).cmp = v := rfl
@[simp] theorem State.setCmp_ic (v : Word) : (s.setCmp v).ic = s.ic := rfl
@[simp] theorem State.setCmp_halted (v : Word) : (s.setCmp v).halted = s.halted := rfl
@[simp] theorem State.setCmp_prog (v : Word) : (s.setCmp v).prog = s.prog := rfl
@[simp] theorem State.setCmp_inBound (v : Word) : (s.setCmp v).inBound = s.inBound := rfl
@[simp] theorem State.setCmp_outBound (v : Word) : (s.setCmp v).outBound = s.outBound := rfl
@[simp] theorem State.setCmp_haltSub (v : Word) : (s.setCmp v).haltSub = s.haltSub := rfl
@[simp] theorem State.setCmp_result (v : Word) : (s.setCmp v).result = s.result := rfl
@[simp] theorem State.setCmp_events (v : Word) : (s.setCmp v).events = s.events := rfl
@[simp] theorem State.setCmp_faultLog (v : Word) : (s.setCmp v).faultLog = s.faultLog := rfl
@[simp] theorem State.setCmp_replies (v : Word) : (s.setCmp v).replies = s.replies := rfl
@[simp] theorem State.setCmp_reg (v : Word) (j : Byte) : (s.setCmp v).reg j = s.reg j := rfl
@[simp] theorem State.setCmp_inputBound (v : Word) (j : Byte) : (s.setCmp v).inputBound j = s.inputBound j := rfl
@[simp] theorem State.setCmp_outputBound (v : Word) (j : Byte) : (s.setCmp v).outputBound j = s.outputBound j := rfl

@[simp] theorem State.setIc_regs (v : Word) : (s.setIc v).regs = s.regs := rfl
@[simp] theorem State.setIc_cmp (v : Word) : (s.setIc v).cmp = s.cmp := rfl
@[simp] theorem State.setIc_ic (v : Word) : (s.setIc v).ic = v := rfl
@[simp] theorem State.setIc_halted (v : Word) : (s.setIc v).halted = s.halted := rfl
@[simp] theorem State.setIc_prog (v : Word) : (s.setIc v).prog = s.prog := rfl
@[simp] theorem State.setIc_inBound (v : Word) : (s.setIc v).inBound = s.inBound := rfl
@[simp] theorem State.setIc_outBound (v : Word) : (s.setIc v).outBound = s.outBound := rfl
@[simp] theorem State.setIc_haltSub (v : Word) : (s.setIc v).haltSub = s.haltSub := rfl
@[simp] theorem State.setIc_result (v : Word) : (s.setIc v).result = s.result := rfl
@[simp] theorem State.setIc_events (v : Word) : (s.setIc v).events = s.events := rfl
@[simp] theorem State.setIc_faultLog (v : Word) : (s.setIc v).faultLog = s.faultLog := rfl
@[simp] theorem State.setIc_replies (v : Word) : (s.setIc v).replies = s.replies := rfl
@[simp] theorem State.setIc_reg (v : Word) (j : Byte) : (s.setIc v).reg j = s.reg j := rfl
@[simp] theorem State.setIc_inputBound (v : Word) (j : Byte) : (s.setIc v).inputBound j = s.inputBound j := rfl
@[simp] theorem State.setIc_outputBound (v : Word) (j : Byte) : (s.setIc v).outputBound j = s.outputBound j := rfl

@[simp] theorem State.setHalted_regs (b : Bool) : (s.setHalted b).regs = s.regs := rfl
@[simp] theorem State.setHalted_cmp (b : Bool) : (s.setHalted b).cmp = s.cmp := rfl
@[simp] theorem State.setHalted_ic (b : Bool) : (s.setHalted b).ic = s.ic := rfl
@[simp] theorem State.setHalted_halted (b : Bool) : (s.setHalted b).halted = b := rfl
@[simp] theorem State.setHalted_prog (b : Bool) : (s.setHalted b).prog = s.prog := rfl
@[simp] theorem State.setHalted_inBound (b : Bool) : (s.setHalted b).inBound = s.inBound := rfl
@[simp] theorem State.setHalted_outBound (b : Bool) : (s.setHalted b).outBound = s.outBound := rfl
@[simp] theorem State.setHalted_haltSub (b : Bool) : (s.setHalted b).haltSub = s.haltSub := rfl
@[simp] theorem State.setHalted_result (b : Bool) : (s.setHalted b).result = s.result := rfl
@[simp] theorem State.setHalted_events (b : Bool) : (s.setHalted b).events = s.events := rfl
@[simp] theorem State.setHalted_faultLog (b : Bool) : (s.setHalted b).faultLog = s.faultLog := rfl
@[simp] theorem State.setHalted_replies (b : Bool) : (s.setHalted b).replies = s.replies := rfl
@[simp] theorem State.setHalted_reg (b : Bool) (j : Byte) : (s.setHalted b).reg j = s.reg j := rfl
@[simp] theorem State.setHalted_inputBound (b : Bool) (j : Byte) : (s.setHalted b).inputBound j = s.inputBound j := rfl
@[simp] theorem State.setHalted_outputBound (b : Bool) (j : Byte) : (s.setHalted b).outputBound j = s.outputBound j := rfl

@[simp] theorem State.setProg_regs (p : ProgramStore) : (s.setProg p).regs = s.regs := rfl
@[simp] theorem State.setProg_cmp (p : ProgramStore) : (s.setProg p).cmp = s.cmp := rfl
@[simp] theorem State.setProg_ic (p : ProgramStore) : (s.setProg p).ic = s.ic := rfl
@[simp] theorem State.setProg_halted (p : ProgramStore) : (s.setProg p).halted = s.halted := rfl
@[simp] theorem State.setProg_prog (p : ProgramStore) : (s.setProg p).prog = p := rfl
@[simp] theorem State.setProg_inBound (p : ProgramStore) : (s.setProg p).inBound = s.inBound := rfl
@[simp] theorem State.setProg_outBound (p : ProgramStore) : (s.setProg p).outBound = s.outBound := rfl
@[simp] theorem State.setProg_haltSub (p : ProgramStore) : (s.setProg p).haltSub = s.haltSub := rfl
@[simp] theorem State.setProg_result (p : ProgramStore) : (s.setProg p).result = s.result := rfl
@[simp] theorem State.setProg_events (p : ProgramStore) : (s.setProg p).events = s.events := rfl
@[simp] theorem State.setProg_faultLog (p : ProgramStore) : (s.setProg p).faultLog = s.faultLog := rfl
@[simp] theorem State.setProg_replies (p : ProgramStore) : (s.setProg p).replies = s.replies := rfl
@[simp] theorem State.setProg_reg (p : ProgramStore) (j : Byte) : (s.setProg p).reg j = s.reg j := rfl
@[simp] theorem State.setProg_inputBound (p : ProgramStore) (j : Byte) : (s.setProg p).inputBound j = s.inputBound j := rfl
@[simp] theorem State.setProg_outputBound (p : ProgramStore) (j : Byte) : (s.setProg p).outputBound j = s.outputBound j := rfl

@[simp] theorem State.addEvent_regs (e : Event) : (s.addEvent e).regs = s.regs := rfl
@[simp] theorem State.addEvent_cmp (e : Event) : (s.addEvent e).cmp = s.cmp := rfl
@[simp] theorem State.addEvent_ic (e : Event) : (s.addEvent e).ic = s.ic := rfl
@[simp] theorem State.addEvent_halted (e : Event) : (s.addEvent e).halted = s.halted := rfl
@[simp] theorem State.addEvent_prog (e : Event) : (s.addEvent e).prog = s.prog := rfl
@[simp] theorem State.addEvent_inBound (e : Event) : (s.addEvent e).inBound = s.inBound := rfl
@[simp] theorem State.addEvent_outBound (e : Event) : (s.addEvent e).outBound = s.outBound := rfl
@[simp] theorem State.addEvent_haltSub (e : Event) : (s.addEvent e).haltSub = s.haltSub := rfl
@[simp] theorem State.addEvent_result (e : Event) : (s.addEvent e).result = s.result := rfl
@[simp] theorem State.addEvent_events (e : Event) : (s.addEvent e).events = s.events ++ [e] := rfl
@[simp] theorem State.addEvent_faultLog (e : Event) : (s.addEvent e).faultLog = s.faultLog := rfl
@[simp] theorem State.addEvent_replies (e : Event) : (s.addEvent e).replies = s.replies := rfl
@[simp] theorem State.addEvent_reg (e : Event) (j : Byte) : (s.addEvent e).reg j = s.reg j := rfl
@[simp] theorem State.addEvent_inputBound (e : Event) (j : Byte) : (s.addEvent e).inputBound j = s.inputBound j := rfl
@[simp] theorem State.addEvent_outputBound (e : Event) (j : Byte) : (s.addEvent e).outputBound j = s.outputBound j := rfl

@[simp] theorem State.setResult_regs (r : StepResult) : (s.setResult r).regs = s.regs := rfl
@[simp] theorem State.setResult_cmp (r : StepResult) : (s.setResult r).cmp = s.cmp := rfl
@[simp] theorem State.setResult_ic (r : StepResult) : (s.setResult r).ic = s.ic := rfl
@[simp] theorem State.setResult_halted (r : StepResult) : (s.setResult r).halted = s.halted := rfl
@[simp] theorem State.setResult_prog (r : StepResult) : (s.setResult r).prog = s.prog := rfl
@[simp] theorem State.setResult_inBound (r : StepResult) : (s.setResult r).inBound = s.inBound := rfl
@[simp] theorem State.setResult_outBound (r : StepResult) : (s.setResult r).outBound = s.outBound := rfl
@[simp] theorem State.setResult_haltSub (r : StepResult) : (s.setResult r).haltSub = s.haltSub := rfl
@[simp] theorem State.setResult_result (r : StepResult) : (s.setResult r).result = some r := rfl
@[simp] theorem State.setResult_events (r : StepResult) : (s.setResult r).events = s.events := rfl
@[simp] theorem State.setResult_faultLog (r : StepResult) : (s.setResult r).faultLog = s.faultLog := rfl
@[simp] theorem State.setResult_replies (r : StepResult) : (s.setResult r).replies = s.replies := rfl
@[simp] theorem State.setResult_reg (r : StepResult) (j : Byte) : (s.setResult r).reg j = s.reg j := rfl
@[simp] theorem State.setResult_inputBound (r : StepResult) (j : Byte) : (s.setResult r).inputBound j = s.inputBound j := rfl
@[simp] theorem State.setResult_outputBound (r : StepResult) (j : Byte) : (s.setResult r).outputBound j = s.outputBound j := rfl

@[simp] theorem State.addFault_regs (e : Fault) : (s.addFault e).regs = s.regs := rfl
@[simp] theorem State.addFault_cmp (e : Fault) : (s.addFault e).cmp = s.cmp := rfl
@[simp] theorem State.addFault_ic (e : Fault) : (s.addFault e).ic = s.ic := rfl
@[simp] theorem State.addFault_halted (e : Fault) : (s.addFault e).halted = s.halted := rfl
@[simp] theorem State.addFault_prog (e : Fault) : (s.addFault e).prog = s.prog := rfl
@[simp] theorem State.addFault_inBound (e : Fault) : (s.addFault e).inBound = s.inBound := rfl
@[simp] theorem State.addFault_outBound (e : Fault) : (s.addFault e).outBound = s.outBound := rfl
@[simp] theorem State.addFault_haltSub (e : Fault) : (s.addFault e).haltSub = s.haltSub := rfl
@[simp] theorem State.addFault_result (e : Fault) : (s.addFault e).result = s.result := rfl
@[simp] theorem State.addFault_events (e : Fault) : (s.addFault e).events = s.events := rfl
@[simp] theorem State.addFault_faultLog (e : Fault) : (s.addFault e).faultLog = s.faultLog ++ [e] := rfl
@[simp] theorem State.addFault_replies (e : Fault) : (s.addFault e).replies = s.replies := rfl
@[simp] theorem State.addFault_reg (e : Fault) (j : Byte) : (s.addFault e).reg j = s.reg j := rfl
@[simp] theorem State.addFault_inputBound (e : Fault) (j : Byte) : (s.addFault e).inputBound j = s.inputBound j := rfl
@[simp] theorem State.addFault_outputBound (e : Fault) (j : Byte) : (s.addFault e).outputBound j = s.outputBound j := rfl

@[simp] theorem State.setReplies_regs (rs : List Reply) : (s.setReplies rs).regs = s.regs := rfl
@[simp] theorem State.setReplies_cmp (rs : List Reply) : (s.setReplies rs).cmp = s.cmp := rfl
@[simp] theorem State.setReplies_ic (rs : List Reply) : (s.setReplies rs).ic = s.ic := rfl
@[simp] theorem State.setReplies_halted (rs : List Reply) : (s.setReplies rs).halted = s.halted := rfl
@[simp] theorem State.setReplies_prog (rs : List Reply) : (s.setReplies rs).prog = s.prog := rfl
@[simp] theorem State.setReplies_inBound (rs : List Reply) : (s.setReplies rs).inBound = s.inBound := rfl
@[simp] theorem State.setReplies_outBound (rs : List Reply) : (s.setReplies rs).outBound = s.outBound := rfl
@[simp] theorem State.setReplies_haltSub (rs : List Reply) : (s.setReplies rs).haltSub = s.haltSub := rfl
@[simp] theorem State.setReplies_result (rs : List Reply) : (s.setReplies rs).result = s.result := rfl
@[simp] theorem State.setReplies_events (rs : List Reply) : (s.setReplies rs).events = s.events := rfl
@[simp] theorem State.setReplies_faultLog (rs : List Reply) : (s.setReplies rs).faultLog = s.faultLog := rfl
@[simp] theorem State.setReplies_replies (rs : List Reply) : (s.setReplies rs).replies = rs := rfl
@[simp] theorem State.setReplies_reg (rs : List Reply) (j : Byte) : (s.setReplies rs).reg j = s.reg j := rfl
@[simp] theorem State.setReplies_inputBound (rs : List Reply) (j : Byte) : (s.setReplies rs).inputBound j = s.inputBound j := rfl
@[simp] theorem State.setReplies_outputBound (rs : List Reply) (j : Byte) : (s.setReplies rs).outputBound j = s.outputBound j := rfl

@[simp] theorem State.bindInput_regs (c : Byte) : (s.bindInput c).regs = s.regs := rfl
@[simp] theorem State.bindInput_cmp (c : Byte) : (s.bindInput c).cmp = s.cmp := rfl
@[simp] theorem State.bindInput_ic (c : Byte) : (s.bindInput c).ic = s.ic := rfl
@[simp] theorem State.bindInput_halted (c : Byte) : (s.bindInput c).halted = s.halted := rfl
@[simp] theorem State.bindInput_prog (c : Byte) : (s.bindInput c).prog = s.prog := rfl
@[simp] theorem State.bindInput_inBound (c : Byte) : (s.bindInput c).inBound = s.inBound.set c.toNat true c.isLt := rfl
@[simp] theorem State.bindInput_outBound (c : Byte) : (s.bindInput c).outBound = s.outBound := rfl
@[simp] theorem State.bindInput_haltSub (c : Byte) : (s.bindInput c).haltSub = s.haltSub := rfl
@[simp] theorem State.bindInput_result (c : Byte) : (s.bindInput c).result = s.result := rfl
@[simp] theorem State.bindInput_events (c : Byte) : (s.bindInput c).events = s.events := rfl
@[simp] theorem State.bindInput_faultLog (c : Byte) : (s.bindInput c).faultLog = s.faultLog := rfl
@[simp] theorem State.bindInput_replies (c : Byte) : (s.bindInput c).replies = s.replies := rfl
@[simp] theorem State.bindInput_reg (c : Byte) (j : Byte) : (s.bindInput c).reg j = s.reg j := rfl
@[simp] theorem State.bindInput_outputBound (c : Byte) (j : Byte) : (s.bindInput c).outputBound j = s.outputBound j := rfl

@[simp] theorem State.bindOutput_regs (c : Byte) : (s.bindOutput c).regs = s.regs := rfl
@[simp] theorem State.bindOutput_cmp (c : Byte) : (s.bindOutput c).cmp = s.cmp := rfl
@[simp] theorem State.bindOutput_ic (c : Byte) : (s.bindOutput c).ic = s.ic := rfl
@[simp] theorem State.bindOutput_halted (c : Byte) : (s.bindOutput c).halted = s.halted := rfl
@[simp] theorem State.bindOutput_prog (c : Byte) : (s.bindOutput c).prog = s.prog := rfl
@[simp] theorem State.bindOutput_inBound (c : Byte) : (s.bindOutput c).inBound = s.inBound := rfl
@[simp] theorem State.bindOutput_outBound (c : Byte) : (s.bindOutput c).outBound = s.outBound.set c.toNat true c.isLt := rfl
@[simp] theorem State.bindOutput_haltSub (c : Byte) : (s.bindOutput c).haltSub = s.haltSub := rfl
@[simp] theorem State.bindOutput_result (c : Byte) : (s.bindOutput c).result = s.result := rfl
@[simp] theorem State.bindOutput_events (c : Byte) : (s.bindOutput c).events = s.events := rfl
@[simp] theorem State.bindOutput_faultLog (c : Byte) : (s.bindOutput c).faultLog = s.faultLog := rfl
@[simp] theorem State.bindOutput_replies (c : Byte) : (s.bindOutput c).replies = s.replies := rfl
@[simp] theorem State.bindOutput_reg (c : Byte) (j : Byte) : (s.bindOutput c).reg j = s.reg j := rfl
@[simp] theorem State.bindOutput_inputBound (c : Byte) (j : Byte) : (s.bindOutput c).inputBound j = s.inputBound j := rfl

@[simp] theorem State.setHaltSub_regs (b : Bool) : (s.setHaltSub b).regs = s.regs := rfl
@[simp] theorem State.setHaltSub_cmp (b : Bool) : (s.setHaltSub b).cmp = s.cmp := rfl
@[simp] theorem State.setHaltSub_ic (b : Bool) : (s.setHaltSub b).ic = s.ic := rfl
@[simp] theorem State.setHaltSub_halted (b : Bool) : (s.setHaltSub b).halted = s.halted := rfl
@[simp] theorem State.setHaltSub_prog (b : Bool) : (s.setHaltSub b).prog = s.prog := rfl
@[simp] theorem State.setHaltSub_inBound (b : Bool) : (s.setHaltSub b).inBound = s.inBound := rfl
@[simp] theorem State.setHaltSub_outBound (b : Bool) : (s.setHaltSub b).outBound = s.outBound := rfl
@[simp] theorem State.setHaltSub_haltSub (b : Bool) : (s.setHaltSub b).haltSub = b := rfl
@[simp] theorem State.setHaltSub_result (b : Bool) : (s.setHaltSub b).result = s.result := rfl
@[simp] theorem State.setHaltSub_events (b : Bool) : (s.setHaltSub b).events = s.events := rfl
@[simp] theorem State.setHaltSub_faultLog (b : Bool) : (s.setHaltSub b).faultLog = s.faultLog := rfl
@[simp] theorem State.setHaltSub_replies (b : Bool) : (s.setHaltSub b).replies = s.replies := rfl
@[simp] theorem State.setHaltSub_reg (b : Bool) (j : Byte) : (s.setHaltSub b).reg j = s.reg j := rfl
@[simp] theorem State.setHaltSub_inputBound (b : Bool) (j : Byte) : (s.setHaltSub b).inputBound j = s.inputBound j := rfl
@[simp] theorem State.setHaltSub_outputBound (b : Bool) (j : Byte) : (s.setHaltSub b).outputBound j = s.outputBound j := rfl

/-- A byte is its number: the places of two bytes are equal only where the bytes are. -/
theorem byte_place_ne {i j : Byte} (h : j ≠ i) : i.toNat ≠ j.toNat := fun e => h (BitVec.eq_of_toNat_eq e).symm

/-- Reading the register just written gives the value written (R22). -/
@[simp] theorem State.reg_setReg_self (i : Byte) (v : Word) : (s.setReg i v).reg i = some v := by
  simp [State.reg]

/-- Writing a register leaves every other one alone (R23). -/
theorem State.reg_setReg_ne {i j : Byte} (v : Word) (h : j ≠ i) : (s.setReg i v).reg j = s.reg j := by
  simp [State.reg, Vector.getElem_set_ne _ _ (byte_place_ne h)]

/-- Both cases in one: a register after a write. -/
theorem State.reg_setReg (i j : Byte) (v : Word) : (s.setReg i v).reg j = if j = i then some v else s.reg j := by
  split
  · next h => subst h; exact s.reg_setReg_self j v
  · next h => exact s.reg_setReg_ne v h

/-- An input channel's bit after a binding (R45). -/
theorem State.inputBound_bindInput (c j : Byte) : (s.bindInput c).inputBound j = (decide (j = c) || s.inputBound j) := by
  by_cases h : j = c
  · subst h; simp [State.inputBound]
  · simp [State.inputBound, h, Vector.getElem_set_ne _ _ (byte_place_ne h)]

/-- An output channel's bit after a binding (R45). -/
theorem State.outputBound_bindOutput (c j : Byte) :
    (s.bindOutput c).outputBound j = (decide (j = c) || s.outputBound j) := by
  by_cases h : j = c
  · subst h; simp [State.outputBound]
  · simp [State.outputBound, h, Vector.getElem_set_ne _ _ (byte_place_ne h)]

/-- Every register is Unwritten at reset (R49). -/
@[simp] theorem State.reset_reg (i : Byte) : State.reset.reg i = none := by
  simp [State.reg, State.reset]

/-- No channel is bound at reset (R49). -/
@[simp] theorem State.reset_inputBound (c : Byte) : State.reset.inputBound c = false := by
  simp [State.inputBound, State.reset]

/-- No channel is bound at reset (R49). -/
@[simp] theorem State.reset_outputBound (c : Byte) : State.reset.outputBound c = false := by
  simp [State.outputBound, State.reset]

end Sys2Proof.Machine
end

