-- ==== Sys2Proof/Laws/Ops.lean ====
section
/-! SUPPORT. One lemma for each shared operation, which says everything it can answer; later proofs cite it and do not unfold
the operation. -/

namespace Sys2Proof.Machine

/-- `wrap16` inverts the signed reading. -/
@[simp] theorem wrap16_toInt (v : Word) : wrap16 v.toInt = v := BitVec.ofInt_toInt

/-- The increment of R35 is the wrapped one of D9. -/
theorem wrap16_toInt_add_one (v : Word) : wrap16 (v.toInt + 1) = v + 1 := by
  rw [wrap16, BitVec.ofInt_add, BitVec.ofInt_toInt]; rfl

/-- What taking an error answers, with no other case (R183, R190). -/
theorem raise_eq (e : Fault) (s : State) :
    raise e s = .next { s with result := some (.error e), faultLog := s.faultLog ++ [e] } := rfl

/-- What completing a step answers, with no other case (R35). -/
theorem complete_eq (s : State) : complete s = .next { s with ic := s.ic + 1, result := some .ok } := by
  unfold complete
  rw [wrap16_toInt_add_one]; rfl

/-- What a taken jump answers, with no other case (R35, R152). -/
theorem completeJump_eq (target : Word) (s : State) :
    completeJump target s = .next { s with ic := target, result := some .ok } := rfl

/-- Reading a written register (R22). -/
theorem withReg_of_some {i : Byte} {s : State} {v : Word} (h : s.reg i = some v) (k : Word → Answer) :
    withReg i s k = k v := by
  simp [withReg, h]

/-- Reading an Unwritten register raises (R22). -/
theorem withReg_of_none {i : Byte} {s : State} (h : s.reg i = none) (k : Word → Answer) :
    withReg i s k = raise (.uninitializedRegister i) s := by
  simp [withReg, h]

/-- Everything a register read can do. -/
theorem withReg_cases (i : Byte) (s : State) (k : Word → Answer) :
    (∃ v, s.reg i = some v ∧ withReg i s k = k v) ∨
      (s.reg i = none ∧ withReg i s k = raise (.uninitializedRegister i) s) := by
  cases h : s.reg i with
  | none => exact .inr ⟨rfl, withReg_of_none h k⟩
  | some v => exact .inl ⟨v, rfl, withReg_of_some h k⟩

/-- Everything a read of two registers can do, in the order of R186. -/
theorem withRegs_cases (a b : Byte) (s : State) (k : Word → Word → Answer) :
    (∃ va vb, s.reg a = some va ∧ s.reg b = some vb ∧ withRegs a b s k = k va vb) ∨
      (∃ r, (r = a ∨ r = b) ∧ s.reg r = none ∧ withRegs a b s k = raise (.uninitializedRegister r) s) := by
  unfold withRegs
  obtain ⟨va, ha, ea⟩ | ⟨ha, ea⟩ := withReg_cases a s fun va => withReg b s fun vb => k va vb
  · obtain ⟨vb, hb, eb⟩ | ⟨hb, eb⟩ := withReg_cases b s fun vb => k va vb
    · exact .inl ⟨va, vb, ha, hb, ea.trans eb⟩
    · exact .inr ⟨b, .inr rfl, hb, ea.trans eb⟩
  · exact .inr ⟨a, .inl rfl, ha, ea⟩

/-- Everything the frame of R120 can do: write the result and complete, or raise one error. -/
theorem binary_cases (op : Word → Word → Except Fault Word) (d a b : Byte) (s : State) :
    (∃ va vb v, s.reg a = some va ∧ s.reg b = some vb ∧ op va vb = .ok v ∧
        binary op d a b s = complete (s.setReg d v)) ∨
      (∃ e, binary op d a b s = raise e s) := by
  obtain ⟨va, vb, ha, hb, e⟩ | ⟨r, -, -, e⟩ := withRegs_cases a b s fun va vb =>
      match op va vb with
      | .ok v => writeBack d v s
      | .error e => raise e s
  · cases h : op va vb with
    | ok v =>
      rw [h] at e
      exact .inl ⟨va, vb, v, ha, hb, h, e⟩
    | error x =>
      rw [h] at e
      exact .inr ⟨x, e⟩
  · exact .inr ⟨_, e⟩

/-- Everything a call of a callable can do (R48, R55, R56, R191). -/
theorem invoke_cases (s : State) (k : Option Word → State → Answer) :
    (∃ reply rest, invoke s k = k reply (s.setReplies rest) ∧
        ((reply = none ∧ s.replies = [] ∧ rest = []) ∨ ∃ v, reply = some v ∧ s.replies = .returns v :: rest)) ∨
      (invoke s k = .refused .callableFailed ∧ s.replies.head? = some .fails) ∨
      (invoke s k = .refused .callbackReentered ∧ s.replies.head? = some .callsBack) := by
  unfold invoke
  split
  · next h => exact .inl ⟨none, [], by rw [State.setReplies, ← h], .inl ⟨rfl, h, rfl⟩⟩
  · next v rest h => exact .inl ⟨some v, rest, rfl, .inr ⟨v, rfl, h⟩⟩
  · next h => exact .inr (.inl ⟨rfl, by rw [h]; rfl⟩)
  · next h => exact .inr (.inr ⟨rfl, by rw [h]; rfl⟩)

/-- Everything the fetch can do (R32, R33, R51). -/
theorem State.fetch_cases (s : State) :
    (s.fetch = .error .emptyProgram ∧ s.prog.getD [] = []) ∨
      (s.fetch = .error (.invalidAddress s.ic) ∧
        (s.ic.toInt < 0 ∨ ((s.prog.getD []).length : Int) ≤ s.ic.toInt)) ∨
      (∃ w, s.fetch = .ok w ∧ 0 ≤ s.ic.toInt ∧ (s.prog.getD [])[s.ic.toInt.toNat]? = some w) := by
  unfold State.fetch
  split
  · next h => exact .inl ⟨rfl, by rw [h]; rfl⟩
  · next h => exact .inl ⟨rfl, by rw [h]; rfl⟩
  · next w ws h =>
    rw [h]
    split
    · next hneg => exact .inr (.inl ⟨rfl, .inl hneg⟩)
    · next hpos =>
      split
      · next word hw => exact .inr (.inr ⟨word, rfl, by omega, hw⟩)
      · next hw =>
        refine .inr (.inl ⟨rfl, .inr ?_⟩)
        have hlen := List.getElem?_eq_none_iff.mp hw
        simp only [Option.getD_some]
        omega

end Sys2Proof.Machine
end

