-- ==== Sys2Proof/Laws/Exec.lean ====
section
/-! SUPPORT. What `exec` and `step` can answer, said once: every claim over all instructions follows from these cases. -/

namespace Sys2Proof.Machine

/-- What an instruction that completes does beside IC and the step result. -/
def Body (i : Instr) (s b : State) : Prop :=
  match i with
  | .input d c => ∃ v rest, b = withValue { s with events := s.events ++ [.input c v], replies := rest } d v
  | .output src c => ∃ v rest, s.reg src = some v ∧ b = { s with events := s.events ++ [.output c v], replies := rest }
  | .compare _ _ => ∃ v, b = { s with cmp := v }
  | .jump _ _ => b = s
  | .halt => ∃ rest, b = { s with
      halted := true, events := s.events ++ (if s.haltSub then [.haltNotify] else []), replies := rest }
  | .load d _ | .add d _ _ | .subtract d _ _ | .multiply d _ _ | .divide d _ _ | .modulus d _ _ | .leftshift d _ _
  | .rightshift d _ _ | .logicaland d _ _ | .logicalor d _ _ | .logicalnot d _ | .logicalxor d _ _ =>
    ∃ v, b = withValue s d v

/-- `b` with IC and the step result of a completed instruction. -/
def completedFrom (b : State) (ic : Word) : State := { b with ic := ic, result := some .ok }

/-- The four things an instruction can answer. -/
inductive ExecCase (i : Instr) (s : State) : Answer → Prop where
  | raised (e : Fault) : ExecCase i s (raise e s)
  | completed (b : State) (h : Body i s b) : ExecCase i s (.next (completedFrom b (nextIc i s)))
  | failed (h : s.replies.head? = some .fails) : ExecCase i s (.refused .callableFailed)
  | reentered (h : s.replies.head? = some .callsBack) : ExecCase i s (.refused .callbackReentered)

/-- Completing a step of an instruction that is no Jump. -/
theorem execCase_of_complete {i : Instr} {s b : State} (hic : nextIc i s = s.ic + 1) (hb : b.ic = s.ic)
    (h : Body i s b) : ExecCase i s (complete b) := by
  rw [complete_eq, hb, ← hic]
  exact .completed b h

/-- The frame of R120 in the four cases. -/
theorem execCase_of_binary {i : Instr} {op : Word → Word → Except Fault Word} {d a b : Byte} {s : State}
    (hic : nextIc i s = s.ic + 1) (h : ∀ v, Body i s (s.setReg d v)) : ExecCase i s (binary op d a b s) := by
  obtain ⟨_, _, v, -, -, -, e⟩ | ⟨x, e⟩ := binary_cases op d a b s
  · rw [e]; exact execCase_of_complete hic rfl (h v)
  · rw [e]; exact .raised x

/-- Every answer of `exec` is one of the four. -/
theorem exec_cases (i : Instr) (s : State) : ExecCase i s (exec i s) := by
  cases i with
  | load d imm => exact execCase_of_complete rfl rfl ⟨imm, rfl⟩
  | input d c =>
    show ExecCase _ s (execInput d c s)
    unfold execInput inRead
    split
    · obtain ⟨reply, rest, e, -⟩ | ⟨e, h⟩ | ⟨e, h⟩ := invoke_cases s fun reply t =>
          writeBack d (reply.getD (Config.inputOracle t.events c))
            (t.addEvent (.input c (reply.getD (Config.inputOracle t.events c))))
      · rw [e]; exact execCase_of_complete rfl rfl ⟨_, rest, rfl⟩
      · rw [e]; exact .failed h
      · rw [e]; exact .reentered h
    · exact .raised _
  | output src c =>
    show ExecCase _ s (execOutput src c s)
    unfold execOutput outWrite
    split
    · obtain ⟨v, hv, e⟩ | ⟨-, e⟩ := withReg_cases src s fun v =>
          invoke s fun _ t => complete (t.addEvent (.output c v))
      · rw [e]
        obtain ⟨_, rest, e, -⟩ | ⟨e, h⟩ | ⟨e, h⟩ := invoke_cases s fun _ t => complete (t.addEvent (.output c v))
        · rw [e]; exact execCase_of_complete rfl rfl ⟨v, rest, hv, rfl⟩
        · rw [e]; exact .failed h
        · rw [e]; exact .reentered h
      · rw [e]; exact .raised _
    · exact .raised _
  | compare a b =>
    show ExecCase _ s (execCompare a b s)
    unfold execCompare
    obtain ⟨va, vb, -, -, e⟩ | ⟨r, -, -, e⟩ := withRegs_cases a b s fun va vb => complete (s.setCmp (difference va vb))
    · rw [e]; exact execCase_of_complete rfl rfl ⟨_, rfl⟩
    · rw [e]; exact .raised _
  | jump k target =>
    show ExecCase _ s (execJump k target s)
    unfold execJump
    split
    · next h =>
      have hic : nextIc (.jump k target) s = target := by simp [nextIc, h]
      have hc := ExecCase.completed (i := .jump k target) (s := s) s rfl
      rwa [hic] at hc
    · next h => exact execCase_of_complete (by simp [nextIc, h]) rfl rfl
  | logicalnot d a =>
    show ExecCase _ s (execLogicalnot d a s)
    unfold execLogicalnot
    obtain ⟨v, -, e⟩ | ⟨-, e⟩ := withReg_cases a s fun va => writeBack d (~~~va) s
    · rw [e]; exact execCase_of_complete rfl rfl ⟨_, rfl⟩
    · rw [e]; exact .raised _
  | halt =>
    show ExecCase _ s (execHalt s)
    unfold execHalt notify
    split
    · next hs =>
      obtain ⟨_, rest, e, -⟩ | ⟨e, h⟩ | ⟨e, h⟩ := invoke_cases (s.setHalted true) fun _ t =>
          complete (t.addEvent .haltNotify)
      · rw [e]
        have hs' : s.haltSub = true := hs
        exact execCase_of_complete rfl rfl ⟨rest, by rw [if_pos hs']; rfl⟩
      · rw [e]; exact .failed h
      · rw [e]; exact .reentered h
    · next hs =>
      have hs' : ¬s.haltSub = true := hs
      exact execCase_of_complete rfl rfl ⟨s.replies, by rw [if_neg hs', List.append_nil]; rfl⟩
  | add d a b => exact execCase_of_binary (op := addOp) rfl fun v => ⟨v, rfl⟩
  | subtract d a b => exact execCase_of_binary (op := subtractOp) rfl fun v => ⟨v, rfl⟩
  | multiply d a b => exact execCase_of_binary (op := multiplyOp) rfl fun v => ⟨v, rfl⟩
  | divide d a b => exact execCase_of_binary (op := divideOp) rfl fun v => ⟨v, rfl⟩
  | modulus d a b => exact execCase_of_binary (op := modulusOp) rfl fun v => ⟨v, rfl⟩
  | leftshift d a b => exact execCase_of_binary (op := leftshiftOp) rfl fun v => ⟨v, rfl⟩
  | rightshift d a b => exact execCase_of_binary (op := rightshiftOp) rfl fun v => ⟨v, rfl⟩
  | logicaland d a b => exact execCase_of_binary (op := andOp) rfl fun v => ⟨v, rfl⟩
  | logicalor d a b => exact execCase_of_binary (op := orOp) rfl fun v => ⟨v, rfl⟩
  | logicalxor d a b => exact execCase_of_binary (op := xorOp) rfl fun v => ⟨v, rfl⟩

/-- What a step can answer: a no-op while halted, an error with nothing else changed, or the instruction's own answer. -/
theorem step_cases (s : State) :
    (s.halted = true ∧ step s = .next s.noOp) ∨
      (s.halted = false ∧ ∃ e, s.fetchInstr = .error e ∧ step s = raise e s) ∨
      (s.halted = false ∧ ∃ i, s.fetchInstr = .ok i ∧ step s = exec i s) := by
  unfold step
  cases hh : s.halted with
  | true => exact .inl ⟨rfl, rfl⟩
  | false =>
    cases hf : s.fetchInstr with
    | error e => exact .inr (.inl ⟨rfl, e, rfl, rfl⟩)
    | ok i => exact .inr (.inr ⟨rfl, i, rfl, rfl⟩)

/-- An instruction the step fetches is decoded from the word at IC (R33, R34). -/
theorem fetchInstr_ok {s : State} {i : Instr} (h : s.fetchInstr = .ok i) :
    ∃ w, s.fetch = .ok w ∧ decode w = .ok i := by
  unfold State.fetchInstr at h
  split at h
  · cases h
  · next w hw =>
    split at h
    · next j hj => cases h; exact ⟨w, hw, hj⟩
    · cases h

/-- The errors of the fetch and decode, in their order (R185). -/
theorem fetchInstr_error {s : State} {e : Fault} (h : s.fetchInstr = .error e) :
    s.fetch = .error e ∨ ∃ w opcode, s.fetch = .ok w ∧ decode w = .error (.invalidOpcode opcode) ∧
      e = .invalidOpcode opcode := by
  unfold State.fetchInstr at h
  split at h
  · next x hx => cases h; exact .inl hx
  · next w hw =>
    split at h
    · cases h
    · next opcode ho => cases h; exact .inr ⟨w, opcode, hw, ho, rfl⟩

end Sys2Proof.Machine
end

