-- ==== Sys2Proof/Laws/PerInstr.lean ====
section
/-! SUPPORT. What holds of every instruction as syntax, one lemma per constructor. -/

namespace Sys2Proof.Laws.EncodedOpcode

/-- The encoding of an instruction has one of the 17 opcode bytes of R78: 0 to 15, or 255. -/
def Statement (i : Instr) : Prop := (encode i).opcode.toNat ≤ 15 ∨ (encode i).opcode.toNat = 255

theorem load (d : Byte) (imm : Word) : Statement (.load d imm) := by simp [Statement, encode]
theorem input (d c : Byte) : Statement (.input d c) := by simp [Statement, encode]
theorem output (src c : Byte) : Statement (.output src c) := by simp [Statement, encode]
theorem add (d a b : Byte) : Statement (.add d a b) := by simp [Statement, encode]
theorem subtract (d a b : Byte) : Statement (.subtract d a b) := by simp [Statement, encode]
theorem multiply (d a b : Byte) : Statement (.multiply d a b) := by simp [Statement, encode]
theorem divide (d a b : Byte) : Statement (.divide d a b) := by simp [Statement, encode]
theorem modulus (d a b : Byte) : Statement (.modulus d a b) := by simp [Statement, encode]
theorem leftshift (d a b : Byte) : Statement (.leftshift d a b) := by simp [Statement, encode]
theorem rightshift (d a b : Byte) : Statement (.rightshift d a b) := by simp [Statement, encode]
theorem compare (a b : Byte) : Statement (.compare a b) := by simp [Statement, encode]
theorem jump (k : Cond) (target : Word) : Statement (.jump k target) := by simp [Statement, encode]
theorem logicaland (d a b : Byte) : Statement (.logicaland d a b) := by simp [Statement, encode]
theorem logicalor (d a b : Byte) : Statement (.logicalor d a b) := by simp [Statement, encode]
theorem logicalnot (d a : Byte) : Statement (.logicalnot d a) := by simp [Statement, encode]
theorem logicalxor (d a b : Byte) : Statement (.logicalxor d a b) := by simp [Statement, encode]
theorem halt : Statement (.halt) := by simp [Statement, encode]

end Sys2Proof.Laws.EncodedOpcode
end

