-- ==== Sys2Proof/Laws/Program.lean ====
section
/-! SUPPORT. The program store keeps its form (at most 32768 words, R20) under every operation that writes it. -/

namespace Sys2Proof.Machine

/-- A loaded program has the form exactly where it is not too long. -/
theorem ProgramStore.wf_some (words : List InstrWord) :
    ProgramStore.wf (some words) = true ↔ words.length ≤ Config.programLimit := by
  simp [ProgramStore.wf]

/-- No program is loaded at power-on (R211). -/
theorem State.reset_prog_wf : State.reset.prog.wf = true := rfl

/-- Placing a word inside the address range keeps the form. -/
theorem ProgramStore.place_wf (p : ProgramStore) (a : Nat) (word : InstrWord) (hp : p.wf = true)
    (ha : a < Config.programLimit) : (p.place a word).wf = true := by
  have hlen : (p.getD []).length ≤ Config.programLimit := by
    cases p with
    | none => simp
    | some words => exact (ProgramStore.wf_some words).mp hp
  unfold ProgramStore.place
  dsimp only
  split
  · exact (ProgramStore.wf_some _).mpr (by simpa using hlen)
  · refine (ProgramStore.wf_some _).mpr ?_
    simp only [List.length_append, List.length_replicate, List.length_singleton]
    omega

/-- The load port keeps the form: what is too long is not loaded (R42; D21). -/
theorem State.loadProgram_wf (s : State) (words : List InstrWord) (h : s.prog.wf = true) :
    (s.loadProgram words).1.prog.wf = true := by
  unfold State.loadProgram
  split
  · next hlen => exact (ProgramStore.wf_some words).mpr hlen
  · exact h

/-- So does loading a binary form (R42, R52). -/
theorem State.loadBinary_wf (s : State) (bytes : List Byte) (h : s.prog.wf = true) :
    (s.loadBinary bytes).1.prog.wf = true := by
  unfold State.loadBinary
  split
  · exact s.loadProgram_wf _ h
  · exact h

/-- Reset keeps the program (R210). -/
theorem State.resetRequest_prog (s : State) : s.resetRequest.prog = s.prog := rfl

/-- The host's probe keeps the form: IC never reaches past address 32767. -/
theorem State.withFetchWord_wf (s : State) (nbits w : Nat) (h : s.prog.wf = true) :
    (s.withFetchWord nbits w).prog.wf = true := by
  refine ProgramStore.place_wf _ _ _ h ?_
  have := s.ic.isLt
  simp only [Config.programLimit]
  rw [BitVec.toInt]
  split <;> omega

end Sys2Proof.Machine
end

