-- ==== Sys2Proof/Tests/Slice0.lean ====
section
/-! SUPPORT. The model's own tests: decoding of words written out from the spec, single steps with results from
spec/95_test_vectors.md or worked out by hand from the rules, the assembler's examples, and one witness or more for the
hypotheses of every statement that has some. -/

namespace Sys2Proof.Tests

open Sys2Proof.Machine

/-! ### Well-formedness -/

/-- The one check: code 6 has a name of its own (R77), so it is no reserved code. -/
theorem test_reserved_code_six_is_ill_formed : (Instr.jump (.reserved 6) 0).wellFormed = false := by decide

theorem test_reserved_code_seven_is_well_formed : (Instr.jump (.reserved 7) 0).wellFormed = true := by decide

/-! ### Decoding: words from the encodings of R110 to R170, one for each constructor -/

/-- `load -1, 7` (R110). -/
theorem test_decode_load : decodeTableWord 32 0x0007FFFF = some (.load 7 (-1)) := by decide

/-- `input 2, 4` with an ignored byte (V3). -/
theorem test_decode_input : decodeTableWord 32 0x010204AB = some (.input 2 4) := by decide

/-- `output 2, 1` (V3). -/
theorem test_decode_output : decodeTableWord 32 0x02020100 = some (.output 2 1) := by decide

/-- `add 0, 1, 2` (R121). -/
theorem test_decode_add : decodeTableWord 32 0x03020001 = some (.add 2 0 1) := by decide

/-- `subtract 0, 2, 0` (R122). -/
theorem test_decode_subtract : decodeTableWord 32 0x04000002 = some (.subtract 0 0 2) := by decide

/-- `multiply 0, 1, 2` (R123). -/
theorem test_decode_multiply : decodeTableWord 32 0x05020001 = some (.multiply 2 0 1) := by decide

/-- `divide 2, 3, 4` (P4). -/
theorem test_decode_divide : decodeTableWord 32 0x06040203 = some (.divide 4 2 3) := by decide

/-- `modulus 0, 1, 3` (P5). -/
theorem test_decode_modulus : decodeTableWord 32 0x07030001 = some (.modulus 3 0 1) := by decide

/-- `leftshift 1, 1, 5` (P5). -/
theorem test_decode_leftshift : decodeTableWord 32 0x08050101 = some (.leftshift 5 1 1) := by decide

/-- `rightshift 0, 1, 4` (P5). -/
theorem test_decode_rightshift : decodeTableWord 32 0x09040001 = some (.rightshift 4 0 1) := by decide

/-- `compare 7, 8` (V12). -/
theorem test_decode_compare : decodeTableWord 32 0x0A070800 = some (.compare 7 8) := by decide

/-- `jump above` to address 4 (R152). -/
theorem test_decode_jump : decodeTableWord 32 0x0B030004 = some (.jump .above 4) := by decide

/-- Condition codes 6 and 7, the last name and the first reserved code (R77, R81). -/
theorem test_decode_jump_codes :
    decodeTableWord 32 0x0B068000 = some (.jump .belowOrEqual (-32768)) ∧
      decodeTableWord 32 0x0B07FFFF = some (.jump (.reserved 7) (-1)) := by decide

/-- `logicaland 0, 1, 2` (R160). -/
theorem test_decode_logicaland : decodeTableWord 32 0x0C020001 = some (.logicaland 2 0 1) := by decide

/-- `logicalor 2, 2, 1` (P2). -/
theorem test_decode_logicalor : decodeTableWord 32 0x0D010202 = some (.logicalor 1 2 2) := by decide

/-- `logicalnot 3, 4`: source 3, destination 4 (V12). -/
theorem test_decode_logicalnot : decodeTableWord 32 0x0E040300 = some (.logicalnot 4 3) := by decide

/-- `logicalxor 0, 0, 7` (P5). -/
theorem test_decode_logicalxor : decodeTableWord 32 0x0F070000 = some (.logicalxor 7 0 0) := by decide

/-- `FF 12 34 56` is Halt (V10). -/
theorem test_decode_halt : decodeTableWord 32 0xFF123456 = some .halt := by decide

/-- Opcodes 16 and 254, the ends of the illegal range (R80), and W10's word. -/
theorem test_decode_illegal :
    decodeTableWord 32 0x10000000 = none ∧ decodeTableWord 32 0xFE010203 = none ∧ decodeTableWord 32 0x3700FF12 = none := by
  decide

/-- W3: a 7-byte buffer has no binary form. -/
theorem test_length_error : decodeProgram [0, 0, 0, 5, 255, 0, 0] = .error (.instructionLength 7) := by decide

/-- V1: the codec on -200 and -32768. -/
theorem test_codec :
    split (-200) = (0xFF, 0x38) ∧ join 0xFF 0x38 = -200 ∧ split (-32768) = (0x80, 0x00) ∧ join 0x80 0x00 = -32768 := by
  decide

/-! ### Single steps -/

/-- A machine with the given registers written. -/
def start (regs : List (Byte × Word)) : State := regs.foldl (fun s p => s.setReg p.1 p.2) State.reset

/-- The state after one step that executes the word `w`. -/
def after (s : State) (w : Nat) : Option State :=
  match step (s.withFetchWord 32 w) with
  | .next t => some t
  | .fault _ => none
  | .refused _ => none

/-- Register `i` after one step that executes `w`. -/
def regAfter (s : State) (w : Nat) (i : Byte) : Option Word := (after s w).bind fun t => t.reg i

/-- V2: `load -32768, 3`. -/
theorem test_load : regAfter State.reset 0x00038000 3 = some (-32768) := by decide

/-- V3: channel 4 produces -5. -/
theorem test_input_value :
    regAfter ((State.reset.bindInput 4).setReplies [.returns (-5)]) 0x01020400 2 = some (-5) := by decide

/-- W7: no channel 2 is bound. -/
theorem test_input_unbound :
    (after State.reset 0x01000200).map (fun t => (t.result, t.ic, t.events)) =
      some (some (.error (.invalidChannel .input 2)), 0, []) := by decide

/-- V3: one event with the register's value. -/
theorem test_output_event :
    (after ((start [(2, -32768)]).bindOutput 1) 0x02020100).map State.events = some [.output 1 (-32768)] := by decide

/-- V3: the channel is checked before the register. -/
theorem test_output_checks_channel_first :
    (after State.reset 0x02020100).bind State.result = some (.error (.invalidChannel .output 1)) := by decide

/-- V4: 32767 + 1. -/
theorem test_add_wraps : regAfter (start [(0, 32767), (1, 1)]) 0x03020001 2 = some (-32768) := by decide

/-- V4: with both sources unwritten the first is named (D10). -/
theorem test_add_unwritten :
    (after State.reset 0x03020001).bind State.result = some (.error (.uninitializedRegister 0)) := by decide

/-- V4: -32768 - 1. -/
theorem test_subtract_wraps : regAfter (start [(0, -32768), (1, 1)]) 0x04020001 2 = some 32767 := by decide

/-- W2: 200 * 200 wraps. -/
theorem test_multiply_wraps : regAfter (start [(0, 200), (1, 200)]) 0x05020001 2 = some (-25536) := by decide

/-- W1. -/
theorem test_multiply_in_range : regAfter (start [(0, 249), (1, 60)]) 0x05020001 2 = some 14940 := by decide

/-- V5: -7 / 2 rounds toward zero, and -32768 / -1 wraps. -/
theorem test_divide :
    regAfter (start [(0, -7), (1, 2)]) 0x06020001 2 = some (-3) ∧
      regAfter (start [(0, -32768), (1, -1)]) 0x06020001 2 = some (-32768) := by decide

/-- V5: 9 / 0. -/
theorem test_divide_by_zero :
    (after (start [(0, 9), (1, 0)]) 0x06020001).bind State.result = some (.error .divideByZero) := by decide

/-- V5: the remainder has the dividend's sign. -/
theorem test_modulus :
    regAfter (start [(0, -7), (1, 2)]) 0x07020001 2 = some (-1) ∧
      regAfter (start [(0, 7), (1, -2)]) 0x07020001 2 = some 1 := by decide

/-- V6: 1 shifted left by 15, and 16384 by 2. -/
theorem test_leftshift :
    regAfter (start [(0, 1), (1, 15)]) 0x08020001 2 = some (-32768) ∧
      regAfter (start [(0, 16384), (1, 2)]) 0x08020001 2 = some 0 := by decide

/-- V6: a count of 16 and of -1 give the free value, and no error. -/
theorem test_leftshift_out_of_range :
    regAfter (start [(0, 1), (1, 16)]) 0x08020001 2 = some (Config.shiftOutOfRange .left 1 16) ∧
      regAfter (start [(0, 1), (1, -1)]) 0x08020001 2 = some (Config.shiftOutOfRange .left 1 (-1)) := ⟨rfl, rfl⟩

/-- V6: arithmetic shifts of -7 by 1 and of -1 by 15. -/
theorem test_rightshift :
    regAfter (start [(0, -7), (1, 1)]) 0x09020001 2 = some (-4) ∧
      regAfter (start [(0, -1), (1, 15)]) 0x09020001 2 = some (-1) := by decide

/-- V8: the difference of 32767 and -1 wraps. -/
theorem test_compare_wraps :
    (after (start [(0, 32767), (1, -1)]) 0x0A000100).map State.cmp = some (-32768) := by decide

/-- V9: Above at CMP 0 and 1, from address 0 to 20. -/
theorem test_jump_above :
    (after State.reset 0x0B030014).map State.ic = some 1 ∧
      (after (State.reset.setCmp 1) 0x0B030014).map State.ic = some 20 := by decide

/-- V9: BelowOrEqual at -32768, and the reserved code 255. -/
theorem test_jump_below_and_reserved :
    (after (State.reset.setCmp (-32768)) 0x0B060014).map State.ic = some 20 ∧
      (after (State.reset.setCmp (-32768)) 0x0BFF0014).map State.ic = some 1 := by decide

/-- V7: -6 AND 7. -/
theorem test_logicaland : regAfter (start [(0, -6), (1, 7)]) 0x0C020001 2 = some 2 := by decide

/-- V7: -32768 OR 32767. -/
theorem test_logicalor : regAfter (start [(0, -32768), (1, 32767)]) 0x0D020001 2 = some (-1) := by decide

/-- W4: the complements of 5 and -9128. -/
theorem test_logicalnot :
    regAfter (start [(0, 5)]) 0x0E010000 1 = some (-6) ∧ regAfter (start [(0, -9128)]) 0x0E010000 1 = some 9127 := by
  decide

/-- V7: -32768 XOR -1. -/
theorem test_logicalxor : regAfter (start [(0, -32768), (1, -1)]) 0x0F020001 2 = some 32767 := by decide

/-- V10: Halt at 3 with and without a subscriber. -/
theorem test_halt :
    (after ((State.reset.setHaltSub true).setIc 3) 0xFF000000).map (fun t => (t.halted, t.ic, t.events)) =
        some (true, 4, [.haltNotify]) ∧
      (after (State.reset.setIc 3) 0xFF123456).map (fun t => (t.halted, t.ic, t.events)) = some (true, 4, []) := by
  decide

/-- V10: `N = 32768`, the increment of 32767 (D9). -/
theorem test_counter_wraps :
    (match complete (State.reset.setIc 32767) with | .next t => some t.ic | _ => none) = some (-32768) := by decide

/-! ### The assembler -/

/-- W5. -/
theorem test_compile_w5 :
    compile "load 200,1\ninput 0,0\nadd 0,1,2\nhalt".toList =
      .ok [0x00, 0x01, 0x00, 0xC8, 0x01, 0, 0, 0, 0x03, 0x02, 0, 0x01, 0xFF, 0, 0, 0] := by decide +kernel

/-- W6: the label `:end` resolves to 4. -/
theorem test_compile_w6 :
    assemble "load 10,0\noutput 0,0\njump unconditional,:end\nhalt\n:end\noutput 0,0\nhalt".toList =
      .ok [⟨0, 0, 0, 10⟩, ⟨2, 0, 0, 0⟩, ⟨11, 0, 0, 4⟩, ⟨255, 0, 0, 0⟩, ⟨2, 0, 0, 0⟩, ⟨255, 0, 0, 0⟩] := by
  decide +kernel

/-- V12: white space, a comment, a comment-only line and a CR LF. -/
theorem test_compile_comment :
    compile "  add 0,1,2   // sum\r\n// only a comment".toList = .ok [0x03, 0x02, 0x00, 0x01] := by decide +kernel

/-- V12: case, condition name, unknown label, operand count, range. -/
theorem test_compile_errors :
    compile "Load 1, 0".toList = .error (.unrecognizedMnemonic "Load 1, 0".toList) ∧
      compile "jump Above, :x".toList = .error (.unrecognizedJumpCondition "Above".toList) ∧
      compile "jump above, 4".toList = .error (.unresolvedJumpLabel "4".toList) ∧
      compile "add 0, 1".toList = .error (.malformedOperand "add 0, 1".toList) ∧
      compile "load 32768, 0".toList = .error (.malformedOperand "32768".toList) := by decide +kernel

/-- R91, R181: an unmatched mnemonic carries the full original line, its white space and comment included, and not its line end. -/
theorem test_compile_unmatched_line :
    compile "halt\r\n  nop 1  // idle\nhalt".toList = .error (.unrecognizedMnemonic "  nop 1  // idle".toList) := by
  decide +kernel

/-- V12: a label declared twice. -/
theorem test_compile_duplicate_label :
    compile ":a\nhalt\n:a".toList = .error (.duplicateLabel ":a".toList) := by decide +kernel

/-- R180, R181: the first and last codes of both tables. -/
theorem test_error_codes :
    faultCode .emptyProgram = 1 ∧ faultCode .divideByZero = 6 ∧ (ToolError.malformedOperand []).code = 16 ∧
      (ToolError.duplicateLabel []).code = 21 := by decide

/-! ### Witnesses: states and operands that meet the hypotheses of the statements -/

/-- A loaded machine: `add 0, 1, 2`, an illegal word, `jump unconditional` to address 2, `halt`; registers 0 and 1 written, CMP
-1, input channel 4 and output channel 1 bound, a subscriber. -/
def sample : State :=
  ((((start [(0, 7), (1, -2)]).setProg (some [⟨3, 2, 0, 1⟩, ⟨0x10, 0, 0, 0⟩, ⟨0x0B, 0, 0, 2⟩, ⟨0xFF, 1, 2, 3⟩])).setCmp
    (-1)).bindInput 4).bindOutput 1 |>.setHaltSub true

/-- `sample` with the given IC and replies of the environment. -/
def sampleAt (ic : Word) (replies : List Reply) : State := (sample.setIc ic).setReplies replies

/-- DecodeInvertsEncode, at both ends of the reserved codes. -/
theorem witness_decode_encode :
    (Instr.jump (.reserved 7) (-32768)).wellFormed = true ∧ (Instr.jump (.reserved 255) 32767).wellFormed = true := by
  decide

/-- DecodedWordReencodesWithIgnoredBytesZero: a word with one ignored byte, one with three, one with none. -/
theorem witness_reencode :
    decode ⟨1, 5, 2, 0xAB⟩ = .ok (.input 5 2) ∧ decode ⟨255, 1, 2, 3⟩ = .ok .halt ∧
      decode ⟨3, 255, 0, 1⟩ = .ok (.add 255 0 1) := ⟨rfl, rfl, rfl⟩

/-- OpcodeSelectsTheInstruction and IllegalOpcodeRaisesWhenExecuted: the ends of the illegal range. -/
theorem witness_illegal_opcodes :
    (16 ≤ (16 : Byte).toNat ∧ (16 : Byte).toNat ≤ 254) ∧ 16 ≤ (254 : Byte).toNat ∧ (254 : Byte).toNat ≤ 254 := by decide

/-- ConditionCodesTestTheSignedCompareRegister and ReservedConditionCodesNeverJump: the ends of the reserved codes. -/
theorem witness_reserved_codes : 7 ≤ (7 : Byte).toNat ∧ 7 ≤ (255 : Byte).toNat := by decide

/-- JumpTargetIsAbsoluteAndMayBeNegative: a taken Jump to -1 and to -32768 on a loaded machine. -/
theorem witness_negative_target :
    condHolds .below sample.cmp = true ∧ (-1 : Word).toInt < 0 ∧ (-32768 : Word).toInt < 0 ∧ sample.halted = false ∧
      ∃ w words, sample.prog = some (w :: words) := ⟨by decide, by decide, by decide, rfl, _, _, rfl⟩

/-- WordDecodeIsTotalAndRoundTrips: two words with one opcode. -/
theorem witness_same_opcode : (⟨9, 1, 2, 3⟩ : InstrWord).opcode = (⟨9, 4, 5, 6⟩ : InstrWord).opcode := rfl

/-- BinaryFormDecodesFourBytesAWord, LoadPortKeepsTheCounter: lengths 7, 8 and 0. -/
theorem witness_lengths :
    ([0, 0, 0, 5, 255, 0, 0] : List Byte).length % 4 ≠ 0 ∧ ([0, 0, 0, 5, 255, 0, 0, 0] : List Byte).length % 4 = 0 ∧
      ([] : List Byte).length % 4 = 0 ∧ wordsOfBytes [0, 0, 0, 5, 255, 0, 0, 0] = some [⟨0, 0, 0, 5⟩, ⟨255, 0, 0, 0⟩] := by
  decide

/-- WrapGivesTheCongruentSignedValue: the ends of the range, and an `r` that is the wrapped value. -/
theorem witness_wrap :
    (wrap16 32768).toInt = -32768 ∧ (wrap16 (-32769)).toInt = 32767 ∧ (-32768 : Int) % 65536 = 32768 % 65536 := by decide

/-- HaltedStepIsNoOp, OnlyHaltSetsHaltedAndOnlyTheHostClearsIt, RunEndsHaltedOrFaulted: a halted machine, its step and the two
requests that clear it. -/
theorem witness_halted :
    (sample.setHalted true).halted = true ∧
      (∃ t, step (sample.setHalted true) = .next t ∧ t.result = some .noOp) ∧
      (∃ t r, serve .reset (sample.setHalted true) = .next (t, r) ∧ t.halted = false) ∧
      ∃ t r, serve .clearHalt (sample.setHalted true) = .next (t, r) ∧ t.halted = false :=
  ⟨rfl, ⟨_, rfl, rfl⟩, ⟨_, _, rfl, rfl⟩, _, _, rfl, rfl⟩

/-- StepWithoutProgramRaisesEmptyProgram: no program, and a program of no words. -/
theorem witness_no_program :
    State.reset.halted = false ∧ State.reset.prog = none ∧ (State.reset.setProg (some [])).halted = false ∧
      (State.reset.setProg (some [])).prog = some [] := ⟨rfl, rfl, rfl, rfl⟩

/-- CounterOutsideTheProgramRaisesInvalidAddress: -1 and N outside, 0 and N - 1 inside. -/
theorem witness_counters :
    (∃ words, sample.prog = some words ∧ words ≠ [] ∧ (words.length : Int) ≤ (sampleAt 4 []).ic.toInt ∧
      (sampleAt 3 []).ic.toInt < words.length) ∧ sample.halted = false ∧
      (sampleAt (-1) []).ic.toInt < 0 ∧ 0 ≤ (sampleAt 0 []).ic.toInt :=
  ⟨⟨_, rfl, by decide, by decide, by decide⟩, rfl, by decide, by decide⟩

/-- IllegalOpcodeRaisesWhenExecuted: an illegal word at IC, one of a program of several words, and 254. -/
theorem witness_at_illegal_word :
    (∃ words, sample.prog = some words ∧ ⟨0x10, 0, 0, 0⟩ ∈ words ∧ words.length ≤ 32768) ∧
      AtWord (sampleAt 1 []) ⟨0x10, 0, 0, 0⟩ ∧ AtWord (sample.setProg (some [⟨0xFE, 1, 2, 3⟩])) ⟨0xFE, 1, 2, 3⟩ := by
  refine ⟨⟨_, rfl, by decide, by decide⟩, ?_⟩
  unfold AtWord; decide

/-- StepRunsTheDecodedInstruction: `add 0, 1, 2` at IC. -/
theorem witness_at_add : AtWord sample ⟨3, 2, 0, 1⟩ ∧ decode ⟨3, 2, 0, 1⟩ = .ok (.add 2 0 1) := by
  refine ⟨?_, rfl⟩
  unfold AtWord; decide

/-- JumpToItselfRunsForever: a Jump to its own address at IC 2. -/
theorem witness_at_self_jump :
    AtWord (sampleAt 2 []) ⟨0x0B, 0, 0, 2⟩ ∧ decode ⟨0x0B, 0, 0, 2⟩ = .ok (.jump .unconditional (sampleAt 2 []).ic) := by
  refine ⟨?_, rfl⟩
  unfold AtWord; decide

/-- CompletedInstructionSetsTheCounter, NoInstructionWritesProgramTablesOrSubscriber, EventsAreThoseOfTheInstruction,
RegistersReadAndWrittenAreTheOnesNamed: instructions that complete, one that adds an event and one that adds none. -/
theorem witness_completed :
    (∃ t, exec (.add 2 0 1) sample = .next t ∧ t.result = some .ok) ∧ destOf (.add 2 0 1) = some 2 ∧
      (∃ t, exec (.jump .below 9) sample = .next t ∧ t.result = some .ok) ∧
      (∃ t, exec (.input 3 4) sample = .next t ∧ t.result = some .ok) ∧
      (∃ t, exec (.output 0 1) sample = .next t ∧ t.result = some .ok) ∧
      ∃ t, exec .halt sample = .next t ∧ t.result = some .ok :=
  ⟨⟨_, rfl, rfl⟩, rfl, ⟨_, rfl, rfl⟩, ⟨_, rfl, rfl⟩, ⟨_, rfl, rfl⟩, _, rfl, rfl⟩

/-- RaisingStepChangesNoArchitecturalState, StepReportsOneResult: a step that raises and one that completes. -/
theorem witness_raising_step :
    (∃ t e, step (sampleAt 1 []) = .next t ∧ t.result = some (.error e)) ∧ sample.halted = false ∧
      ∃ t, step sample = .next t ∧ t.result = some .ok :=
  ⟨⟨_, _, rfl, rfl⟩, rfl, _, rfl, rfl⟩

/-- CmpIsWrittenByCompareAndReadByConditionalJumps: instructions that are no Compare, Jumps that do not read CMP, and a Compare
that completes. -/
theorem witness_cmp :
    (∃ t, exec (.load 0 5) sample = .next t) ∧ (∀ a b, Instr.load 0 5 ≠ .compare a b) ∧
      readsCmp (.jump .unconditional 1) = false ∧ readsCmp (.jump (.reserved 7) 1) = false ∧
      readsCmp (.compare 0 1) = false ∧ ∃ t, exec (.compare 0 1) sample = .next t ∧ t.result = some .ok :=
  ⟨⟨_, rfl⟩, by simp, rfl, rfl, rfl, _, rfl, rfl⟩

/-- RegistersReadAndWrittenAreTheOnesNamed: two register files that agree on the sources of `add 2, 0, 1` and differ in 9. -/
theorem witness_same_sources :
    (∀ r ∈ sourcesOf (.add 2 0 1), ({ sample with regs := (sample.setReg 9 1).regs } : State).reg r = sample.reg r) ∧
      (sample.setReg 9 1).reg 9 ≠ sample.reg 9 := by decide

/-- WrittenRegistersStayWritten: a step and a request other than reset on a machine with register 0 written. -/
theorem witness_written :
    sample.reg 0 ≠ none ∧ (∃ t, step sample = .next t) ∧ Request.clearHalt ≠ .reset ∧
      ∃ t a, serve .clearHalt sample = .next (t, a) := ⟨by decide, ⟨_, rfl⟩, by decide, _, _, rfl⟩

/-- StepsKeepTheInvariant, HostRequestsKeepTheInvariant: a loaded machine, after an error, meets the invariant and has a next
state. -/
theorem witness_invariant :
    ∃ s, Consistent s ∧ s.faultLog = [.invalidOpcode 0x10] ∧ (∃ t, step s = .next t) ∧
      ∃ t r, serve (.loadProgram [⟨0, 0, 0, 0⟩]) s = .next (t, r) := by
  refine ⟨((sampleAt 1 []).setResult (.error (.invalidOpcode 0x10))).addFault (.invalidOpcode 0x10), ?_, rfl, ⟨_, rfl⟩, _, _,
    rfl⟩
  refine ⟨rfl, ?_, ?_⟩
  · intro e he
    obtain rfl : e = .invalidOpcode 0x10 := List.mem_singleton.mp he
    decide
  · intro e he
    obtain rfl : Fault.invalidOpcode 0x10 = e := StepResult.error.inj (Option.some.inj he)
    rfl

/-- OnlyMisbehavingCallablesAreRefused, MisbehavingCallableIsRefused: the three callers with both kinds of reply, and a refused
step. -/
theorem witness_misbehaving :
    sample.inputBound 4 = true ∧ sample.outputBound 1 = true ∧ sample.reg 0 = some 7 ∧ sample.haltSub = true ∧
      (sampleAt 3 [.fails]).replies = .fails :: [] ∧ (sampleAt 3 [.callsBack]).replies = .callsBack :: [] ∧
      step (sampleAt 3 [.fails]) = .refused .callableFailed ∧
      step (sampleAt 3 [.callsBack]) = .refused .callbackReentered :=
  ⟨by decide, by decide, by decide, rfl, rfl, rfl, rfl, rfl⟩

/-- InputReadsItsChannel, OutputWritesItsChannel, HaltSetsHaltedAndNotifiesOnce: bound and unbound channels, a written and an
unwritten source, with and without a reply, with and without a subscriber. -/
theorem witness_channels :
    sample.inputBound 4 = true ∧ sample.inputBound 5 = false ∧ sample.outputBound 1 = true ∧
      sample.outputBound 4 = false ∧ sample.reg 0 = some 7 ∧ sample.reg 2 = none ∧ sample.replies = [] ∧
      (sampleAt 0 [.returns 5]).replies = .returns 5 :: [] ∧ sample.haltSub = true ∧
      State.reset.haltSub = false := ⟨by decide, by decide, by decide, by decide, by decide, by decide, rfl, rfl, rfl, rfl⟩

/-- The statements by FollowsFrame, Logicalnot and Compare: sources written, the second or the first Unwritten, a result and an
error of the operation. -/
theorem witness_sources :
    sample.reg 0 = some 7 ∧ sample.reg 1 = some (-2) ∧ sample.reg 2 = none ∧ addOp 7 (-2) = .ok 5 ∧
      divideOp 7 (-2) = .ok (-3) ∧ divideOp 7 0 = .error .divideByZero ∧ modulusOp 7 0 = .error .divideByZero :=
  ⟨by decide, by decide, by decide, rfl, rfl, rfl, rfl⟩

/-- The shifts: counts 0 and 15 inside, -1 and 16 outside. -/
theorem witness_counts :
    countInRange 0 = true ∧ countInRange 15 = true ∧ countInRange (-1) = false ∧ countInRange 16 = false := by decide

/-- QuotientAndRemainderMeetTheDivisionIdentity, ArithmeticIsTwosComplement: a divisor that is not 0, and count 15. -/
theorem witness_divisor : (-1 : Word) ≠ 0 ∧ (15 : Word).toNat ≤ 15 := by decide

/-- ConditionsOrderTheComparedValues: differences at both ends of the signed range. -/
theorem witness_differences :
    (-32768 : Int) ≤ (-32768 : Word).toInt - (0 : Word).toInt ∧ (32767 : Word).toInt - (0 : Word).toInt ≤ 32767 := by decide

/-- HostWritesNoRegisterAndNotCmp: a request that is no step, run or reset. -/
theorem witness_host_request :
    (∃ t a, serve (.setIc 3) sample = .next (t, a)) ∧ Request.setIc 3 ≠ .step ∧ (∀ n, Request.setIc 3 ≠ .run n) ∧
      Request.setIc 3 ≠ .reset := ⟨⟨_, _, rfl⟩, by simp, by simp, by simp⟩

/-- LoadPortKeepsTheCounter: 32768 words are loaded, one more is not. -/
theorem witness_program_sizes :
    (List.replicate 32768 (⟨0, 0, 0, 0⟩ : InstrWord)).length ≤ 32768 ∧
      32768 < (List.replicate 32769 (⟨0, 0, 0, 0⟩ : InstrWord)).length := by
  simp only [List.length_replicate]; omega

/-- RunEndsHaltedOrFaulted, FaultedRunLeavesTheStateBeforeTheFailingStep: runs that end in an error and halted. -/
theorem witness_run_ends :
    (∃ t, runFor 2 sample = .ended (.faulted (.invalidOpcode 0x10)) t) ∧ ∃ t, runFor 1 (sampleAt 3 []) = .ended .halted t :=
  ⟨⟨_, rfl⟩, _, rfl⟩

/-- CompiledBufferHasFourBytesAnInstruction: a source that compiles. -/
theorem witness_compiles : compile "halt".toList = .ok [255, 0, 0, 0] := by decide +kernel

/-- TextOperandsGoToTheirSlots: tokens that parse, at the ends of their ranges, and a label at the last encodable address. -/
theorem witness_tokens :
    parseByte "0".toList = .ok 0 ∧ parseByte "255".toList = .ok 255 ∧ parseByte "+7".toList = .ok 7 ∧
      parseImmediate "-32768".toList = .ok (-32768) ∧ parseCondition "below".toList = .ok .below ∧
      ([(":end".toList, 32767)] : JumpMap).lookup ":end".toList = some 32767 := by decide +kernel

/-- LabelResolvesToTheNextInstruction: a label after one instruction line and before another. -/
theorem witness_label :
    isLabel (readLine ":a // here".toList) = true ∧
      labelPass ([readLine "halt".toList] ++ readLine ":a // here".toList :: [readLine "halt".toList]) 0 [] =
        .ok [(":a".toList, 1)] := by decide +kernel

end Sys2Proof.Tests
end

/-! PROOFS. The state (spec/10_state.md): what an instruction writes, said once for each field, and what it reads, by running it
on two states that differ in registers and CMP. -/

namespace Sys2Proof.Machine

/-! ## What a completing instruction writes -/

/-- An instruction with a next state raised, or did its part and set IC (R35, R36). -/
theorem exec_next {i : Instr} {s t : State} (h : exec i s = .next t) :
    (∃ e, t = (s.setResult (.error e)).addFault e) ∨ ∃ b, Body i s b ∧ t = completedFrom b (nextIc i s) := by
  have hc := exec_cases i s
  rw [h] at hc
  cases hc with
  | raised e => exact .inl ⟨e, rfl⟩
  | completed b hb => exact .inr ⟨b, hb, rfl⟩

/-- CMP after every instruction but Compare (R24). -/
theorem Body.cmp_eq {i : Instr} {s b : State} (h : Body i s b) (hi : ∀ x y, i ≠ .compare x y) : b.cmp = s.cmp := by
  cases i with
  | compare x y => exact absurd rfl (hi x y)
  | input d c => obtain ⟨v, rest, rfl⟩ := h; rfl
  | output src c => obtain ⟨v, rest, -, rfl⟩ := h; rfl
  | jump k target => obtain rfl : b = s := h; rfl
  | halt => obtain ⟨rest, rfl⟩ := h; rfl
  | _ => obtain ⟨v, rfl⟩ := h; rfl

/-- HALTED after every instruction (R26). -/
theorem Body.halted_eq {i : Instr} {s b : State} (h : Body i s b) : b.halted = (s.halted || decide (i = .halt)) := by
  cases i with
  | input d c => obtain ⟨v, rest, rfl⟩ := h; simp [withValue]
  | output src c => obtain ⟨v, rest, -, rfl⟩ := h; simp
  | jump k target => obtain rfl : b = s := h; simp
  | halt => obtain ⟨rest, rfl⟩ := h; simp
  | _ => obtain ⟨v, rfl⟩ := h; simp [withValue]

/-- The register file after every instruction: the destination, if there is one, is written and nothing else (R23). -/
theorem Body.regs_eq {i : Instr} {s b : State} (h : Body i s b) :
    (destOf i = none ∧ b.regs = s.regs) ∨ ∃ d v, destOf i = some d ∧ b.regs = (s.setReg d v).regs := by
  cases i with
  | input d c => obtain ⟨v, rest, rfl⟩ := h; exact .inr ⟨d, v, rfl, rfl⟩
  | output src c => obtain ⟨v, rest, -, rfl⟩ := h; exact .inl ⟨rfl, rfl⟩
  | compare x y => obtain ⟨v, rfl⟩ := h; exact .inl ⟨rfl, rfl⟩
  | jump k target => obtain rfl : b = s := h; exact .inl ⟨rfl, rfl⟩
  | halt => obtain ⟨rest, rfl⟩ := h; exact .inl ⟨rfl, rfl⟩
  | _ => obtain ⟨v, rfl⟩ := h; exact .inr ⟨_, v, rfl, rfl⟩

/-- A register is read from the register file alone. -/
theorem State.reg_congr {s t : State} (h : t.regs = s.regs) (r : Byte) : t.reg r = s.reg r := by
  simp [State.reg, h]

/-! ## What an instruction reads: two states run side by side -/

/-- `s` with another register file and another CMP. -/
def State.overlay (s : State) (regs : Vector (Option Word) 256) (cmp : Word) : State :=
  { s with regs := regs, cmp := cmp }

/-- The one piece of state an instruction writes beside IC, with the value it writes. -/
inductive Write where
  | nothing
  | reg (d : Byte) (v : Word)
  | cmp (v : Word)
  | halted

/-- `s` with the write done. -/
def Write.apply (s : State) : Write → State
  | .nothing => s
  | .reg d v => s.setReg d v
  | .cmp v => s.setCmp v
  | .halted => s.setHalted true

/-- The write is one `i` makes: its destination, CMP for Compare, HALTED for Halt (R23, R24, R26). -/
def Write.Fits (i : Instr) : Write → Prop
  | .nothing => destOf i = none ∧ (∀ x y, i ≠ .compare x y) ∧ i ≠ .halt
  | .reg d _ => destOf i = some d
  | .cmp _ => ∃ x y, i = .compare x y
  | .halted => i = .halt

/-- `s` after an instruction that completes with the write `w`, the event history `es`, the replies `rs` left and IC at `ic`. -/
def Write.after (w : Write) (s : State) (es : List Event) (rs : List Reply) (ic : Word) : State :=
  completedFrom { w.apply s with events := es, replies := rs } ic

/-- The answers of `i` in `s` and in `t` are the same: the same error, the same refusal, or the same write, history, replies and
IC. -/
inductive Lockstep (i : Instr) (s t : State) : Answer → Answer → Prop where
  | raised (e : Fault) : Lockstep i s t (raise e s) (raise e t)
  | refused (r : Refusal) : Lockstep i s t (.refused r) (.refused r)
  | completed (w : Write) (h : w.Fits i) (es : List Event) (rs : List Reply) (ic : Word) :
      Lockstep i s t (.next (w.after s es rs ic)) (.next (w.after t es rs ic))

section
variable {i : Instr} {s : State} {regs : Vector (Option Word) 256} {cmp : Word}

/-- Completing after the write `w` and any events and replies keeps two states in lockstep. -/
theorem lockstep_complete (w : Write) (h : w.Fits i) (es : List Event) (rs : List Reply) :
    Lockstep i s (s.overlay regs cmp) (complete { w.apply s with events := es, replies := rs })
      (complete { w.apply (s.overlay regs cmp) with events := es, replies := rs }) := by
  have hic : ∀ x : State, (w.apply x).ic = x.ic := fun x => by cases w <;> rfl
  rw [complete_eq, complete_eq]
  simp only [hic]
  exact .completed w h es rs (s.ic + 1)

/-- A source register that is the same in both states keeps them in lockstep. -/
theorem lockstep_withReg {a : Byte} {k l : Word → Answer} (ha : (s.overlay regs cmp).reg a = s.reg a)
    (hk : ∀ v, Lockstep i s (s.overlay regs cmp) (k v) (l v)) :
    Lockstep i s (s.overlay regs cmp) (withReg a s k) (withReg a (s.overlay regs cmp) l) := by
  obtain ⟨v, hv, e⟩ | ⟨hn, e⟩ := withReg_cases a s k
  · rw [e, withReg_of_some (ha.trans hv)]; exact hk v
  · rw [e, withReg_of_none (ha.trans hn)]; exact .raised _

/-- Two source registers that are the same in both states keep them in lockstep. -/
theorem lockstep_withRegs {a b : Byte} {k l : Word → Word → Answer}
    (hsrc : ∀ r ∈ [a, b], (s.overlay regs cmp).reg r = s.reg r)
    (hk : ∀ va vb, Lockstep i s (s.overlay regs cmp) (k va vb) (l va vb)) :
    Lockstep i s (s.overlay regs cmp) (withRegs a b s k) (withRegs a b (s.overlay regs cmp) l) :=
  lockstep_withReg (hsrc a (by simp)) fun va => lockstep_withReg (hsrc b (by simp)) fun vb => hk va vb

/-- The frame of R120 keeps two states in lockstep that agree on its sources. -/
theorem lockstep_binary {op : Word → Word → Except Fault Word} {d a b : Byte} (hd : destOf i = some d)
    (hsrc : ∀ r ∈ [a, b], (s.overlay regs cmp).reg r = s.reg r) :
    Lockstep i s (s.overlay regs cmp) (binary op d a b s) (binary op d a b (s.overlay regs cmp)) := by
  refine lockstep_withRegs hsrc fun va vb => ?_
  cases op va vb with
  | ok v => exact lockstep_complete (.reg d v) hd s.events s.replies
  | error e => exact .raised e

/-- A call of a callable takes the same reply in both states, so it keeps them in lockstep. -/
theorem lockstep_invoke {u u' : State} {k l : Option Word → State → Answer} (hu : u'.replies = u.replies)
    (hk : ∀ reply rest, Lockstep i s (s.overlay regs cmp) (k reply (u.setReplies rest)) (l reply (u'.setReplies rest))) :
    Lockstep i s (s.overlay regs cmp) (invoke u k) (invoke u' l) := by
  unfold invoke
  rw [hu]
  rcases hr : u.replies with _ | ⟨_ | _ | _, rest⟩
  · have hself : u.setReplies [] = u := by rw [State.setReplies, ← hr]
    have hself' : u'.setReplies [] = u' := by rw [State.setReplies, ← hr, ← hu]
    have hnone := hk none []
    rwa [hself, hself'] at hnone
  · exact hk (some _) rest
  · exact .refused _
  · exact .refused _

/-- The condition of a Jump is the same in both states where it reads CMP only if that is the same (R24, R151). -/
theorem condHolds_eq_of_readsCmp {k : Cond} {target : Word} (h : readsCmp (.jump k target) = true → cmp = s.cmp) :
    condHolds k cmp = condHolds k s.cmp := by
  cases k with
  | unconditional => rfl
  | reserved c => rfl
  | _ => rw [h rfl]

/-- An instruction answers the same in two states that differ only in registers and CMP, where they agree on its sources, and on
CMP if it reads that (R23, R24). -/
theorem exec_lockstep (hsrc : ∀ r ∈ sourcesOf i, (s.overlay regs cmp).reg r = s.reg r)
    (hcmp : readsCmp i = true → cmp = s.cmp) :
    Lockstep i s (s.overlay regs cmp) (exec i s) (exec i (s.overlay regs cmp)) := by
  cases i with
  | load d imm => exact lockstep_complete (.reg d imm) (by rfl) s.events s.replies
  | input d c =>
    show Lockstep _ _ _ (execInput d c s) (execInput d c _)
    unfold execInput
    rw [show (s.overlay regs cmp).inputBound c = s.inputBound c from rfl]
    split
    · exact lockstep_invoke rfl fun reply rest => lockstep_complete (.reg d _) (by rfl) _ rest
    · exact .raised _
  | output src c =>
    show Lockstep _ _ _ (execOutput src c s) (execOutput src c _)
    unfold execOutput
    rw [show (s.overlay regs cmp).outputBound c = s.outputBound c from rfl]
    split
    · exact lockstep_withReg (hsrc src (by simp [sourcesOf])) fun v =>
        lockstep_invoke rfl fun _ rest => lockstep_complete .nothing ⟨rfl, by simp, by simp⟩ _ rest
    · exact .raised _
  | compare a b =>
    exact lockstep_withRegs hsrc fun va vb => lockstep_complete (.cmp (difference va vb)) ⟨a, b, rfl⟩ s.events s.replies
  | jump k target =>
    have hnone : Write.nothing.Fits (.jump k target) := ⟨rfl, by simp, by simp⟩
    show Lockstep _ _ _ (execJump k target s) (execJump k target _)
    unfold execJump
    rw [show condHolds k (s.overlay regs cmp).cmp = condHolds k s.cmp from condHolds_eq_of_readsCmp hcmp]
    split
    · exact .completed .nothing hnone s.events s.replies target
    · exact lockstep_complete .nothing hnone s.events s.replies
  | logicalnot d a =>
    exact lockstep_withReg (hsrc a (by simp [sourcesOf])) fun va =>
      lockstep_complete (.reg d (~~~va)) (by rfl) s.events s.replies
  | halt =>
    show Lockstep _ _ _ (execHalt s) (execHalt _)
    unfold execHalt notify
    rw [show ((s.overlay regs cmp).setHalted true).haltSub = (s.setHalted true).haltSub from rfl]
    split
    · exact lockstep_invoke rfl fun _ rest => lockstep_complete .halted (by rfl) _ rest
    · exact lockstep_complete .halted (by rfl) s.events s.replies
  | add d a b => exact lockstep_binary (op := addOp) (by rfl) hsrc
  | subtract d a b => exact lockstep_binary (op := subtractOp) (by rfl) hsrc
  | multiply d a b => exact lockstep_binary (op := multiplyOp) (by rfl) hsrc
  | divide d a b => exact lockstep_binary (op := divideOp) (by rfl) hsrc
  | modulus d a b => exact lockstep_binary (op := modulusOp) (by rfl) hsrc
  | leftshift d a b => exact lockstep_binary (op := leftshiftOp) (by rfl) hsrc
  | rightshift d a b => exact lockstep_binary (op := rightshiftOp) (by rfl) hsrc
  | logicaland d a b => exact lockstep_binary (op := andOp) (by rfl) hsrc
  | logicalor d a b => exact lockstep_binary (op := orOp) (by rfl) hsrc
  | logicalxor d a b => exact lockstep_binary (op := xorOp) (by rfl) hsrc

end

/-- An instruction that does not read CMP answers the same whatever CMP holds (R24). -/
theorem exec_lockstep_cmp {i : Instr} {s : State} (v : Word) (hi : readsCmp i = false) :
    Lockstep i s (s.overlay s.regs v) (exec i s) (exec i { s with cmp := v }) :=
  exec_lockstep (fun _ _ => rfl) fun hr => by simp [hi] at hr

/-- With CMP forgotten, the answers of two states that differ in CMP alone are equal. -/
theorem Lockstep.forgetCmp_eq {i : Instr} {s : State} {v : Word} {x y : Answer}
    (h : Lockstep i s (s.overlay s.regs v) x y) : forgetCmp y = forgetCmp x := by
  cases h with
  | raised e => rfl
  | refused r => rfl
  | completed w hw es rs ic => cases w <;> rfl

/-- What a completing Compare writes is CMP, so nothing is left of the CMP before. -/
theorem Lockstep.compare_eq {a b : Byte} {s t : State} {v : Word} {y : Answer}
    (h : Lockstep (.compare a b) s (s.overlay s.regs v) (.next t) y) (hok : t.result = some .ok) : y = .next t := by
  cases h with
  | raised e => cases hok
  | completed w hw es rs ic =>
    cases w with
    | nothing => obtain ⟨-, hne, -⟩ := hw; exact absurd rfl (hne a b)
    | reg d x => cases hw
    | cmp x => rfl
    | halted => cases hw

/-- The answers of two states that differ in registers alone agree but for registers, and in the destination. -/
theorem Lockstep.agreeButRegs {i : Instr} {s : State} {regs : Vector (Option Word) 256} {x y : Answer}
    (h : Lockstep i s (s.overlay regs s.cmp) x y) : AgreeButRegs (destOf i) x y := by
  cases h with
  | raised e => exact ⟨rfl, fun _ _ hok => by cases hok⟩
  | refused r => exact rfl
  | completed w hw es rs ic =>
    refine ⟨by cases w <;> rfl, fun r hr _ => ?_⟩
    cases w with
    | nothing => obtain ⟨hnone, -, -⟩ := hw; cases hr.symm.trans hnone
    | reg d v =>
      cases hr.symm.trans hw
      exact ((s.overlay regs s.cmp).reg_setReg_self r v).trans (s.reg_setReg_self r v).symm
    | cmp v => obtain ⟨_, _, rfl⟩ := hw; cases hr
    | halted => obtain rfl : i = .halt := hw; cases hr

/-! ## HALTED and the host's requests -/

/-- Halt never raises: whenever it has a next state, HALTED is true in it (R170). -/
theorem exec_halt_halted {s t : State} (h : exec .halt s = .next t) : t.halted = true := by
  change execHalt s = .next t at h
  unfold execHalt notify at h
  split at h
  · obtain ⟨_, rest, e, -⟩ | ⟨e, -⟩ | ⟨e, -⟩ := invoke_cases (s.setHalted true) fun _ u =>
        complete (u.addEvent .haltNotify)
    · rw [e] at h; cases h; rfl
    · rw [e] at h; cases h
    · rw [e] at h; cases h
  · cases h; rfl

/-- HALTED after every instruction, also one that raised (R26). -/
theorem exec_halted {i : Instr} {s t : State} (h : exec i s = .next t) :
    t.halted = (s.halted || decide (i = .halt)) := by
  by_cases hi : i = .halt
  · subst hi; simp [exec_halt_halted h]
  · obtain ⟨e, rfl⟩ | ⟨b, hb, rfl⟩ := exec_next h
    · simp [hi]
    · exact hb.halted_eq

/-- A load request writes the program store and nothing else (R42). -/
theorem State.loadProgram_fst (s : State) (words : List InstrWord) : ∃ p, (s.loadProgram words).1 = s.setProg p := by
  unfold State.loadProgram
  split
  · exact ⟨some words, rfl⟩
  · exact ⟨s.prog, rfl⟩

/-- A load request in binary form writes the program store and nothing else (R42, R52). -/
theorem State.loadBinary_fst (s : State) (bytes : List Byte) : ∃ p, (s.loadBinary bytes).1 = s.setProg p := by
  unfold State.loadBinary
  split
  · exact s.loadProgram_fst _
  · exact ⟨s.prog, rfl⟩

/-- A step while halted (R31). -/
theorem step_of_halted {s : State} (h : s.halted = true) : step s = .next s.noOp := by
  simp [step, h]

/-- A run of a halted machine has ended before its first step (R37, R38). -/
theorem runFor_of_halted {s : State} (h : s.halted = true) (k : Nat) : runFor k s = .ended .halted s := by
  cases k <;> simp [runFor, h]

/-- A halted machine stays halted under every request but reset and clear halt (R26). -/
theorem serve_keeps_halted {q : Request} {s t : State} {r : Response} (h : serve q s = .next (t, r))
    (hs : s.halted = true) (hreset : q ≠ .reset) (hclear : q ≠ .clearHalt) : t.halted = true := by
  cases q with
  | reset => exact absurd rfl hreset
  | clearHalt => exact absurd rfl hclear
  | step => simp only [serve, step_of_halted hs] at h; cases h; exact hs
  | run limit => simp only [serve, runFor_of_halted hs] at h; cases h; exact hs
  | loadProgram words =>
    obtain ⟨p, hp⟩ := s.loadProgram_fst words
    cases h; rw [hp]; exact hs
  | loadBinary bytes =>
    obtain ⟨p, hp⟩ := s.loadBinary_fst bytes
    cases h; rw [hp]; exact hs
  | _ => cases h; exact hs

/-! ## The obligations -/

/-- Settles O13: the first check of the step is HALTED. -/
theorem haltedStepIsNoOp : Obligations.HaltedStepIsNoOp :=
  fun _ h => step_of_halted h

/-- Settles O21: by what each instruction writes (`Body.cmp_eq`) and by running it on two states (`exec_lockstep`). -/
theorem cmpIsWrittenByCompareAndReadByConditionalJumps :
    Obligations.CmpIsWrittenByCompareAndReadByConditionalJumps := by
  refine ⟨?_, ?_, ?_, fun _ _ => rfl⟩
  · intro i s t h hi
    obtain ⟨e, rfl⟩ | ⟨b, hb, rfl⟩ := exec_next h
    · rfl
    · exact hb.cmp_eq hi
  · intro i s v hi
    exact (exec_lockstep_cmp v hi).forgetCmp_eq
  · intro a b s t v h hok
    exact (h ▸ exec_lockstep_cmp v rfl).compare_eq hok

/-- Settles O23: Halt is the one instruction that writes HALTED, and a halted machine stays so under the other requests. -/
theorem onlyHaltSetsHaltedAndOnlyTheHostClearsIt : Obligations.OnlyHaltSetsHaltedAndOnlyTheHostClearsIt := by
  refine ⟨?_, fun _ _ _ => exec_halted, fun _ => ⟨rfl, rfl⟩, ?_⟩
  · intro s t hs h
    cases (step_of_halted hs).symm.trans h
    exact ⟨rfl, rfl, rfl, rfl, rfl, rfl, rfl, rfl⟩
  · intro q s t r h hs ht
    by_contra hq
    obtain ⟨hreset, hclear⟩ := not_or.mp hq
    simp [serve_keeps_halted h hs hreset hclear] at ht

/-- Settles O24: by the register file after an instruction (`Body.regs_eq`) and by running it on two states. -/
theorem registersReadAndWrittenAreTheOnesNamed : Obligations.RegistersReadAndWrittenAreTheOnesNamed := by
  refine ⟨?_, ?_, fun i s regs hsrc => (exec_lockstep (cmp := s.cmp) hsrc fun _ => rfl).agreeButRegs⟩
  · intro i s t r h hr
    obtain ⟨e, rfl⟩ | ⟨b, hb, rfl⟩ := exec_next h
    · rfl
    · obtain ⟨-, hregs⟩ | ⟨d, v, hd, hregs⟩ := hb.regs_eq
      · exact State.reg_congr hregs r
      · have hne : r ≠ d := fun hrd => hr (hrd ▸ hd)
        exact (State.reg_congr hregs r).trans (s.reg_setReg_ne v hne)
  · intro i s t d h hok hd
    obtain ⟨e, rfl⟩ | ⟨b, hb, rfl⟩ := exec_next h
    · cases hok
    · obtain ⟨hnone, -⟩ | ⟨d', v, hd', hregs⟩ := hb.regs_eq
      · cases hd.symm.trans hnone
      · cases hd.symm.trans hd'
        have hreg : b.reg d = some v := (State.reg_congr hregs d).trans (s.reg_setReg_self d v)
        exact fun hn => by cases hreg.symm.trans hn

end Sys2Proof.Machine

/-! PROOFS. Encoding (spec/30_encoding.md): the codec of 16-bit values, what decides the decode of a word, the binary form of a
program, the condition codes, and the words the assembler's translation pass gives. -/

namespace Sys2Proof.Machine

/-! ## The codec of 16-bit values (R9) -/

/-- The number `join` spells: the high byte has the weight 256. -/
theorem join_toNat (h l : Byte) : (join h l).toNat = h.toNat * 256 + l.toNat := by
  rw [join, BitVec.toNat_append, ← Nat.shiftLeft_add_eq_or_of_lt l.isLt, Nat.shiftLeft_eq]

/-- The signed reading of `join`: a pattern from 32768 on stands for a negative value (R8, R9). -/
theorem join_toInt (h l : Byte) :
    (join h l).toInt =
      if h.toNat * 256 + l.toNat ≥ 32768 then (h.toNat * 256 + l.toNat : Int) - 65536 else h.toNat * 256 + l.toNat := by
  rw [BitVec.toInt_eq_toNat_cond, join_toNat]
  split <;> split <;> omega

/-- `join` inverts `split`: the two bytes are next to each other in the value. -/
@[simp] theorem join_split (v : Word) : join (split v).1 (split v).2 = v :=
  (BitVec.extractLsb'_append_extractLsb'_eq_extractLsb' rfl).trans BitVec.extractLsb'_eq_self

/-! ## The instruction word (R70, R78, R80) -/

/-- The four bytes of the number W give it back (R7). -/
@[simp] theorem toBits_ofBits (bits : BitVec 32) : (InstrWord.ofBits bits).toBits = bits := by
  simp only [InstrWord.toBits, InstrWord.ofBits]
  rw [BitVec.extractLsb'_append_extractLsb'_eq_extractLsb' (by rfl),
    BitVec.extractLsb'_append_extractLsb'_eq_extractLsb' (by rfl),
    BitVec.extractLsb'_append_extractLsb'_eq_extractLsb' (by rfl), BitVec.extractLsb'_eq_self]

/-- A word's buffer has four bytes (R70). -/
theorem toBytes_length (w : InstrWord) : w.toBytes.length = 4 := rfl

/-- The opcodes 16 to 254 name no instruction (R80). -/
theorem decode_of_illegal {w : InstrWord} (hlo : 16 ≤ w.opcode.toNat) (hhi : w.opcode.toNat ≤ 254) :
    decode w = .error (.invalidOpcode w.opcode) := by
  unfold decode
  split
  case h_18 => rfl
  all_goals omega

/-- The other opcodes name one (R78). -/
theorem exists_decode_of_legal {w : InstrWord} (h : w.opcode.toNat ≤ 15 ∨ w.opcode.toNat = 255) :
    ∃ i, decode w = .ok i := by
  unfold decode
  split
  case h_18 =>
    simp only [imp_false] at *
    omega
  all_goals exact ⟨_, rfl⟩

/-- Whether a word names an instruction is a matter of its opcode byte alone (R71). -/
theorem decode_ok_iff (w : InstrWord) : (∃ i, decode w = .ok i) ↔ w.opcode.toNat ≤ 15 ∨ w.opcode.toNat = 255 := by
  refine ⟨fun ⟨i, hi⟩ => ?_, exists_decode_of_legal⟩
  by_contra hop
  have hlt := w.opcode.isLt
  cases hi.symm.trans (decode_of_illegal (w := w) (by omega) (by omega))

/-- The word at IC is the word fetched, whatever its bytes (R33, R51). -/
theorem fetch_of_atWord {s : State} {w : InstrWord} (h : AtWord s w) : s.fetch = .ok w := by
  obtain ⟨-, hic, hw⟩ := h
  obtain ⟨hlt, -⟩ := List.getElem?_eq_some_iff.mp hw
  obtain ⟨-, hnil⟩ | ⟨-, hout⟩ | ⟨w', hfetch, -, hw'⟩ := s.fetch_cases
  · simp [hnil] at hlt
  · omega
  · cases hw.symm.trans hw'
    exact hfetch

/-! ## The binary form of a program (R52) -/

theorem wordsOfBytes_flatMap_toBytes (words : List InstrWord) :
    wordsOfBytes (words.flatMap InstrWord.toBytes) = some words := by
  induction words with
  | nil => rfl
  | cons w ws ih => simp [InstrWord.toBytes, wordsOfBytes, ih]

/-- Every list of words survives its binary form. -/
theorem decodeProgram_encodeProgram (words : List InstrWord) : decodeProgram (encodeProgram words) = .ok words := by
  rw [decodeProgram, encodeProgram, wordsOfBytes_flatMap_toBytes]

theorem encodeProgram_length (words : List InstrWord) : (encodeProgram words).length = 4 * words.length := by
  simp [encodeProgram, List.length_flatMap, toBytes_length, Nat.mul_comm]

/-! ## The condition codes (R77, R81) -/

/-- A code from 7 on is a reserved one. -/
theorem decodeCond_of_seven_le {k : Byte} (h : 7 ≤ k.toNat) : decodeCond k = .reserved k := by
  unfold decodeCond
  split
  case h_8 => rfl
  all_goals omega

/-! ## The assembler's passes (R98, R99) -/

/-- A pass followed by another that completes: both completed (R99). -/
theorem bind_ok {α β : Type} {x : Except ToolError α} {f : α → Except ToolError β} {r : β} (h : x >>= f = .ok r) :
    ∃ v, x = .ok v ∧ f v = .ok r := by
  cases x with
  | error e => cases h
  | ok v => exact ⟨v, rfl, h⟩

/-- The translation pass gives one word for each line, in the lines' order (R98). -/
theorem translateAll_forall₂ {labels : JumpMap} {lines : List SourceLine} {words : List InstrWord}
    (h : translateAll labels lines = .ok words) :
    List.Forall₂ (fun line word => translate labels line = .ok word) lines words := by
  induction lines generalizing words with
  | nil => cases h; exact .nil
  | cons line lines ih =>
    obtain ⟨word, hword, h⟩ := bind_ok h
    obtain ⟨rest, hrest, h⟩ := bind_ok h
    cases h
    exact .cons hword (ih hrest)

/-- A source that assembles passed the label pass and the translation pass (R99). -/
theorem assemble_ok {source : Text} {words : List InstrWord} (h : assemble source = .ok words) :
    ∃ labels, labelPass (preprocess source) 0 [] = .ok labels ∧
      translateAll labels (instructionLines (preprocess source)) = .ok words :=
  bind_ok h

/-- The buffer of a source that compiles is the binary form of its words (R98). -/
theorem compile_ok {source : Text} {bytes : List Byte} (h : compile source = .ok bytes) :
    ∃ words, assemble source = .ok words ∧ bytes = encodeProgram words := by
  rw [compile] at h
  cases hwords : assemble source with
  | error e => rw [hwords] at h; cases h
  | ok words => rw [hwords] at h; cases h; exact ⟨words, rfl, rfl⟩

/-! ## The obligations -/

/-- Settles O5: a code's test is the decided comparison of the signed CMP with 0, and 7 to 255 decode to the reserved codes. -/
theorem conditionCodesTestTheSignedCompareRegister : Obligations.ConditionCodesTestTheSignedCompareRegister := by
  refine ⟨fun cmp => ⟨rfl, decide_eq_true_iff, decide_eq_true_iff, decide_eq_true_iff, decide_eq_true_iff,
    decide_eq_true_iff, decide_eq_true_iff, ?_⟩, rfl, rfl, rfl, rfl, rfl, rfl, rfl⟩
  intro k hk
  rw [decodeCond_of_seven_le hk, condHolds]

/-- Settles O7: by the signed reading of `join` and its inverse `split`. -/
theorem loadImmediateIsTheSignedPattern : Obligations.LoadImmediateIsTheSignedPattern := by
  refine ⟨fun d h l => ⟨rfl, join_toInt h l⟩, fun d v => ⟨rfl, ?_⟩⟩
  calc decode ⟨0x00, d, (split v).1, (split v).2⟩
      = .ok (.load d (join (split v).1 (split v).2)) := rfl
    _ = .ok (.load d v) := by rw [join_split]

/-- Settles O10: each part by the lemma about the bytes, the number, the fetch, the opcodes and the binary form. -/
theorem wordDecodeIsTotalAndRoundTrips : Obligations.WordDecodeIsTotalAndRoundTrips := by
  refine ⟨fun b0 b1 b2 b3 => ⟨⟨b0, b1, b2, b3⟩, rfl, rfl⟩, toBits_ofBits, fun _ _ => fetch_of_atWord, ?_,
    decodeProgram_encodeProgram⟩
  intro w w' hop
  rw [decode_ok_iff, decode_ok_iff, hop]

/-- Settles O58: the translation pass relates lines and words one to one, and the buffer is the words' binary form. -/
theorem compiledBufferHasFourBytesAnInstruction : Obligations.CompiledBufferHasFourBytesAnInstruction := by
  intro source bytes h
  obtain ⟨words, hwords, rfl⟩ := compile_ok h
  obtain ⟨labels, hlabels, hwords⟩ := assemble_ok hwords
  have hrel := translateAll_forall₂ hwords
  have hlen := hrel.length_eq
  refine ⟨by rw [encodeProgram_length, hlen], words, labels, hlabels, rfl, decodeProgram_encodeProgram words, hlen.symm, ?_⟩
  intro a line ha
  obtain ⟨hlt, rfl⟩ := List.getElem?_eq_some_iff.mp ha
  have hlt' : a < words.length := hlen ▸ hlt
  exact ⟨words[a], List.getElem?_eq_getElem hlt', hrel.get hlt hlt'⟩

/-- Settles O3: an opcode byte written out selects its arm of `decode`, which reads no ignored byte; the others by
`decode_of_illegal`. -/
theorem opcodeSelectsTheInstruction : Obligations.OpcodeSelectsTheInstruction := by
  intro x y z
  exact ⟨rfl, rfl, rfl, rfl, rfl, rfl, rfl, rfl, rfl, rfl, rfl, rfl, rfl, rfl, rfl, rfl, rfl,
    fun op => decode_of_illegal (w := ⟨op, x, y, z⟩)⟩

end Sys2Proof.Machine

/-! PROOFS. Decode and encode (spec/30_encoding.md): each inverts the other; the binary form read four bytes at a time, and
loaded. -/

namespace Sys2Proof.Machine

/-! ## Condition codes and 16-bit fields -/

/-- A condition's byte decodes to the condition, where it is no reserved code below 7 (R77, R81). -/
theorem decodeCond_encodeCond {k : Cond} (h : k.wellFormed = true) : decodeCond (encodeCond k) = k := by
  cases k with
  | reserved c => exact decodeCond_of_seven_le (of_decide_eq_true h)
  | _ => rfl

/-- A byte is the one with its number. -/
theorem byte_eq_ofNat {b : Byte} {n : Nat} (h : b.toNat = n) : b = BitVec.ofNat 8 n := by
  rw [← h, BitVec.ofNat_toNat, BitVec.setWidth_eq]

/-- Every condition byte is the byte of the condition it decodes to (R77, R81). -/
theorem encodeCond_decodeCond (k : Byte) : encodeCond (decodeCond k) = k := by
  unfold decodeCond
  split
  case h_8 => rfl
  all_goals
    next h => exact (byte_eq_ofNat h).symm

/-- No byte decodes to a reserved code below 7 (R81). -/
theorem decodeCond_wellFormed (k : Byte) : (decodeCond k).wellFormed = true := by
  unfold decodeCond
  split
  case h_8 =>
    simp only [imp_false] at *
    simp only [Cond.wellFormed, decide_eq_true_eq]
    omega
  all_goals rfl

/-- `split` inverts `join`: the bytes of two bytes put together are those two (R9). -/
@[simp] theorem split_join (h l : Byte) : split (join h l) = (h, l) :=
  Prod.ext BitVec.extractLsb'_append_eq_left BitVec.extractLsb'_append_eq_right

/-! ## One word -/

theorem decode_encode {i : Instr} (h : i.wellFormed = true) : decode (encode i) = .ok i := by
  cases i with
  | load d imm =>
    calc decode (encode (.load d imm))
        = .ok (.load d (join (split imm).1 (split imm).2)) := rfl
      _ = .ok (.load d imm) := by rw [join_split]
  | jump k target =>
    have hk : k.wellFormed = true := h
    calc decode (encode (.jump k target))
        = .ok (.jump (decodeCond (encodeCond k)) (join (split target).1 (split target).2)) := rfl
      _ = .ok (.jump k target) := by rw [decodeCond_encodeCond hk, join_split]
  | _ => rfl

/-- The only decode error is the opcode byte of an illegal word (R80). -/
theorem decode_error {w : InstrWord} {opcode : Byte} (h : decode w = .error (.invalidOpcode opcode)) :
    opcode = w.opcode ∧ 16 ≤ w.opcode.toNat ∧ w.opcode.toNat ≤ 254 := by
  have hlt := w.opcode.isLt
  have hillegal : ¬(w.opcode.toNat ≤ 15 ∨ w.opcode.toNat = 255) := fun hlegal => by
    obtain ⟨i, hi⟩ := exists_decode_of_legal hlegal
    cases h.symm.trans hi
  have hlo : 16 ≤ w.opcode.toNat := by omega
  have hhi : w.opcode.toNat ≤ 254 := by omega
  cases h.symm.trans (decode_of_illegal hlo hhi)
  exact ⟨rfl, hlo, hhi⟩

/-! ## The binary form of a program -/

/-- The words read from a buffer have the buffer as their binary form (R52). -/
theorem encodeProgram_of_wordsOfBytes {bytes : List Byte} {words : List InstrWord} (h : wordsOfBytes bytes = some words) :
    encodeProgram words = bytes := by
  induction bytes using wordsOfBytes.induct generalizing words with
  | case1 => cases h; rfl
  | case2 b0 b1 b2 b3 rest ih =>
    obtain ⟨ws, hws, rfl⟩ := Option.map_eq_some_iff.mp h
    simpa [encodeProgram, InstrWord.toBytes] using ih hws
  | case3 bytes hnil hcons => simp [wordsOfBytes] at h

/-- A buffer of a multiple of four bytes is read to its end (R52). -/
theorem exists_wordsOfBytes {bytes : List Byte} (h : bytes.length % 4 = 0) : ∃ words, wordsOfBytes bytes = some words := by
  induction bytes using wordsOfBytes.induct with
  | case1 => exact ⟨[], rfl⟩
  | case2 b0 b1 b2 b3 rest ih =>
    obtain ⟨ws, hws⟩ := ih (by simp only [List.length_cons] at h; omega)
    exact ⟨⟨b0, b1, b2, b3⟩ :: ws, by simp [wordsOfBytes, hws]⟩
  | case3 bytes hnil hcons =>
    rcases bytes with _ | ⟨b0, _ | ⟨b1, _ | ⟨b2, _ | ⟨b3, rest⟩⟩⟩⟩
    · exact absurd rfl hnil
    · simp at h
    · simp at h
    · simp at h
    · exact absurd rfl (hcons b0 b1 b2 b3 rest)

/-- A buffer of any other length is refused with its length (R52). -/
theorem decodeProgram_of_badLength {bytes : List Byte} (h : bytes.length % 4 ≠ 0) :
    decodeProgram bytes = .error (.instructionLength bytes.length) := by
  unfold decodeProgram
  split
  · next words hws =>
    have hlen := encodeProgram_length words
    rw [encodeProgram_of_wordsOfBytes hws] at hlen
    omega
  · rfl

/-- Byte `j` of word `a` stands at `4 * a + j` of the binary form (R52). -/
theorem encodeProgram_getElem? {words : List InstrWord} {a j : Nat} {w : InstrWord} (hw : words[a]? = some w) (hj : j < 4) :
    (encodeProgram words)[4 * a + j]? = w.toBytes[j]? := by
  induction words generalizing a with
  | nil => simp at hw
  | cons x xs ih =>
    have hcons : encodeProgram (x :: xs) = x.toBytes ++ encodeProgram xs := rfl
    rw [hcons]
    cases a with
    | zero =>
      cases hw
      rw [Nat.mul_zero, Nat.zero_add, List.getElem?_append_left hj]
    | succ a =>
      rw [List.getElem?_append_right (by rw [toBytes_length]; omega), toBytes_length,
        show 4 * (a + 1) + j - 4 = 4 * a + j by omega]
      exact ih hw

/-! ## The load port (R42) -/

theorem loadProgram_of_le (s : State) {words : List InstrWord} (h : words.length ≤ 32768) :
    s.loadProgram words = ({ s with prog := some words }, .loaded) :=
  if_pos h

/-- A sequence that is too long is refused (D21). -/
theorem loadProgram_of_lt (s : State) {words : List InstrWord} (h : 32768 < words.length) :
    s.loadProgram words = (s, .tooLong words.length) :=
  if_neg (Nat.not_le.mpr h)

/-- Loading the binary form of a program is loading its words (R42, R52). -/
theorem loadBinary_encodeProgram (s : State) (words : List InstrWord) :
    s.loadBinary (encodeProgram words) = s.loadProgram words := by
  rw [State.loadBinary, decodeProgram_encodeProgram]

/-! ## The obligations -/

/-- Settles O1: by the instruction, of which only the immediate, the target and the condition are coded. -/
theorem decodeInvertsEncode : Obligations.DecodeInvertsEncode :=
  fun _ => decode_encode

/-- Settles O2: in each arm of `decode` the opcode byte is known, and `encode` puts the operands back in their slots. -/
theorem decodedWordReencodesWithIgnoredBytesZero : Obligations.DecodedWordReencodesWithIgnoredBytesZero := by
  rintro ⟨op, x, y, z⟩ i h
  unfold decode at h
  split at h
  case h_1 =>
    next hop =>
    obtain rfl := byte_eq_ofNat hop
    cases h
    exact ⟨rfl, by simp [encode]⟩
  case h_12 =>
    next hop =>
    obtain rfl := byte_eq_ofNat hop
    cases h
    exact ⟨decodeCond_wellFormed x, by simp [encode, encodeCond_decodeCond]⟩
  case h_18 => cases h
  all_goals
    next hop =>
    obtain rfl := byte_eq_ofNat hop
    cases h
    exact ⟨rfl, rfl⟩

/-- Settles O4: each word is a literal, which `decodeTableWord` cuts into its bytes and decodes. -/
theorem wordsOfTheTableDecodeAsWritten : Obligations.WordsOfTheTableDecodeAsWritten :=
  ⟨rfl, rfl, rfl, rfl, rfl, rfl, rfl, rfl, rfl, rfl⟩

/-- Settles O11: a buffer of a bad length has no words, and any other is the binary form of its words. -/
theorem binaryFormDecodesFourBytesAWord : Obligations.BinaryFormDecodesFourBytesAWord := by
  intro bytes
  refine ⟨decodeProgram_of_badLength, fun hlen => ?_⟩
  obtain ⟨words, hws⟩ := exists_wordsOfBytes hlen
  obtain rfl := encodeProgram_of_wordsOfBytes hws
  refine ⟨words, decodeProgram_encodeProgram words, by rw [encodeProgram_length]; omega, rfl, fun a w hw => ?_⟩
  exact ⟨encodeProgram_getElem? (j := 0) hw (by decide), encodeProgram_getElem? (j := 1) hw (by decide),
    encodeProgram_getElem? (j := 2) hw (by decide), encodeProgram_getElem? (j := 3) hw (by decide)⟩

end Sys2Proof.Machine

/-! PROOFS. The step (spec/10_state.md section 5, spec/60_exceptions.md): what each way it can go leaves of the state, the errors it
can raise, and the invariant. -/

namespace Sys2Proof.Machine

/-! ## Which way a step goes -/

/-- The error of the fetch ends the step (R32, R33). -/
theorem step_of_fetch_error {s : State} {e : Fault} (hs : s.halted = false) (h : s.fetch = .error e) :
    step s = raisedAnswer e s := by
  simp [step, hs, State.fetchInstr, h, raise_eq, raisedAnswer]

theorem AtWord.not_halted {s : State} {w : InstrWord} (h : AtWord s w) : s.halted = false :=
  And.left h

/-- A word that decodes is the instruction executed (R34, R35). -/
theorem step_of_decode_ok {s : State} {w : InstrWord} {i : Instr} (h : AtWord s w) (hi : decode w = .ok i) :
    step s = exec i s := by
  simp [step, h.not_halted, State.fetchInstr, fetch_of_atWord h, hi]

/-- A word that names no instruction raises when executed (R80). -/
theorem step_of_decode_error {s : State} {w : InstrWord} {opcode : Byte} (h : AtWord s w)
    (hi : decode w = .error (.invalidOpcode opcode)) : step s = raisedAnswer (.invalidOpcode opcode) s := by
  simp [step, h.not_halted, State.fetchInstr, fetch_of_atWord h, hi, raise_eq, raisedAnswer]

/-- The three next states of a step: the no-op of a halted core, the error recorded and nothing else changed, or an instruction
completed (R31, R35, R36). -/
theorem step_next {s t : State} (h : step s = .next t) :
    (s.halted = true ∧ t = s.noOp) ∨
      (s.halted = false ∧ ∃ e, t = (s.setResult (.error e)).addFault e) ∨
      (s.halted = false ∧ ∃ i b, Body i s b ∧ t = completedFrom b (nextIc i s)) := by
  obtain ⟨hs, e⟩ | ⟨hs, x, -, e⟩ | ⟨hs, i, -, e⟩ := step_cases s
  · cases e.symm.trans h
    exact .inl ⟨hs, rfl⟩
  · cases e.symm.trans h
    exact .inr (.inl ⟨hs, x, rfl⟩)
  · obtain ⟨x, ht⟩ | ⟨b, hb, ht⟩ := exec_next (e.symm.trans h)
    · exact .inr (.inl ⟨hs, x, ht⟩)
    · exact .inr (.inr ⟨hs, i, b, hb, ht⟩)

/-- No instruction answers a fault: errors are taken (log 2). -/
theorem exec_ne_fault (i : Instr) (s : State) (e : Fault) : exec i s ≠ .fault e := by
  intro h
  have hc := exec_cases i s
  rw [h] at hc
  cases hc

theorem step_ne_fault (s : State) (e : Fault) : step s ≠ .fault e := by
  intro h
  obtain ⟨-, hx⟩ | ⟨-, x, -, hx⟩ | ⟨-, i, -, hx⟩ := step_cases s
  · cases hx.symm.trans h
  · cases hx.symm.trans h
  · exact exec_ne_fault i s e (hx.symm.trans h)

/-- Only an instruction can make a step refused. -/
theorem step_refused {s : State} {r : Refusal} (h : step s = .refused r) : ∃ i, exec i s = .refused r := by
  obtain ⟨-, e⟩ | ⟨-, x, -, e⟩ | ⟨-, i, -, e⟩ := step_cases s
  · cases e.symm.trans h
  · cases e.symm.trans h
  · exact ⟨i, e.symm.trans h⟩

/-! ## What a completing instruction keeps -/

/-- No instruction writes the program store, the channel tables or the subscriber slot (R27, R28, R29), and one that completes logs
nothing (R190). -/
theorem Body.kept {i : Instr} {s b : State} (h : Body i s b) :
    b.prog = s.prog ∧ b.inBound = s.inBound ∧ b.outBound = s.outBound ∧ b.haltSub = s.haltSub ∧
      b.faultLog = s.faultLog := by
  cases i with
  | input d c => obtain ⟨v, rest, rfl⟩ := h; exact ⟨rfl, rfl, rfl, rfl, rfl⟩
  | output src c => obtain ⟨v, rest, -, rfl⟩ := h; exact ⟨rfl, rfl, rfl, rfl, rfl⟩
  | jump k target => obtain rfl : b = s := h; exact ⟨rfl, rfl, rfl, rfl, rfl⟩
  | halt => obtain ⟨rest, rfl⟩ := h; exact ⟨rfl, rfl, rfl, rfl, rfl⟩
  | _ => obtain ⟨v, rfl⟩ := h; exact ⟨rfl, rfl, rfl, rfl, rfl⟩

/-- Only Input, Output and Halt add an event (R63). -/
theorem Body.events_eq {i : Instr} {s b : State} (h : Body i s b) (hin : ∀ d c, i ≠ .input d c)
    (hout : ∀ src c, i ≠ .output src c) (hhalt : i ≠ .halt) : b.events = s.events := by
  cases i with
  | input d c => exact absurd rfl (hin d c)
  | output src c => exact absurd rfl (hout src c)
  | halt => exact absurd rfl hhalt
  | jump k target => obtain rfl : b = s := h; rfl
  | _ => obtain ⟨v, rfl⟩ := h; rfl

/-- A register that holds a value holds one after the instruction (R22). -/
theorem Body.reg_ne_none {i : Instr} {s b : State} (h : Body i s b) {r : Byte} (hr : s.reg r ≠ none) : b.reg r ≠ none := by
  obtain ⟨-, hregs⟩ | ⟨d, v, -, hregs⟩ := h.regs_eq
  · rwa [State.reg_congr hregs]
  · rw [State.reg_congr hregs, State.reg_setReg]
    split
    · exact Option.some_ne_none v
    · exact hr

/-- A step keeps every written register (R22). -/
theorem step_keeps_written {s t : State} {r : Byte} (h : step s = .next t) (hr : s.reg r ≠ none) : t.reg r ≠ none := by
  obtain ⟨-, rfl⟩ | ⟨-, e, rfl⟩ | ⟨-, i, b, hb, rfl⟩ := step_next h
  · exact hr
  · exact hr
  · exact hb.reg_ne_none hr

/-! ## The errors a step can raise carry information R180 allows -/

/-- Every error an answer reports is well formed. -/
def RaisesWellFormed (x : Answer) : Prop :=
  ∀ t e, x = .next t → t.result = some (.error e) → e.wellFormed = true

theorem raisesWellFormed_raise {e : Fault} (h : e.wellFormed = true) (s : State) : RaisesWellFormed (raise e s) := by
  intro t x ht hx
  cases ht
  cases hx
  exact h

theorem raisesWellFormed_next {t : State} (h : ∀ e, t.result ≠ some (.error e)) : RaisesWellFormed (.next t) := by
  intro u x hu hx
  cases hu
  exact absurd hx (h x)

theorem raisesWellFormed_complete (s : State) : RaisesWellFormed (complete s) :=
  raisesWellFormed_next nofun

theorem raisesWellFormed_withReg {i : Byte} {s : State} {k : Word → Answer} (hk : ∀ v, RaisesWellFormed (k v)) :
    RaisesWellFormed (withReg i s k) := by
  obtain ⟨v, -, e⟩ | ⟨-, e⟩ := withReg_cases i s k
  · rw [e]; exact hk v
  · rw [e]; exact raisesWellFormed_raise rfl s

theorem raisesWellFormed_withRegs {a b : Byte} {s : State} {k : Word → Word → Answer}
    (hk : ∀ va vb, RaisesWellFormed (k va vb)) : RaisesWellFormed (withRegs a b s k) :=
  raisesWellFormed_withReg fun va => raisesWellFormed_withReg fun vb => hk va vb

theorem raisesWellFormed_binary {op : Word → Word → Except Fault Word}
    (hop : ∀ va vb e, op va vb = .error e → e.wellFormed = true) (d a b : Byte) (s : State) :
    RaisesWellFormed (binary op d a b s) := by
  refine raisesWellFormed_withRegs fun va vb => ?_
  cases h : op va vb with
  | ok v => exact raisesWellFormed_complete _
  | error e => exact raisesWellFormed_raise (hop va vb e h) s

theorem raisesWellFormed_invoke {s : State} {k : Option Word → State → Answer} (hk : ∀ reply t, RaisesWellFormed (k reply t)) :
    RaisesWellFormed (invoke s k) := by
  obtain ⟨reply, rest, e, -⟩ | ⟨e, -⟩ | ⟨e, -⟩ := invoke_cases s k
  · rw [e]; exact hk reply _
  · rw [e]; intro t x ht; cases ht
  · rw [e]; intro t x ht; cases ht

/-- The one error of Divide is `DivideByZero` (R124). -/
theorem divideOp_error {va vb : Word} {e : Fault} (h : divideOp va vb = .error e) : e = .divideByZero := by
  unfold divideOp at h
  split at h
  · cases h; rfl
  · cases h

/-- The one error of Modulus is `DivideByZero` (R125). -/
theorem modulusOp_error {va vb : Word} {e : Fault} (h : modulusOp va vb = .error e) : e = .divideByZero := by
  unfold modulusOp at h
  split at h
  · cases h; rfl
  · cases h

/-- The shifts raise nothing, whatever the count (R142). -/
theorem leftshiftOp_ne_error (va vb : Word) (e : Fault) : leftshiftOp va vb ≠ .error e := by
  unfold leftshiftOp
  split <;> exact nofun

/-- The shifts raise nothing, whatever the count (R142). -/
theorem rightshiftOp_ne_error (va vb : Word) (e : Fault) : rightshiftOp va vb ≠ .error e := by
  unfold rightshiftOp
  split <;> exact nofun

/-- Every error an instruction raises is well formed: none of them is `InvalidOpcode`. -/
theorem raisesWellFormed_exec (i : Instr) (s : State) : RaisesWellFormed (exec i s) := by
  cases i with
  | load d imm => exact raisesWellFormed_complete _
  | input d c =>
    show RaisesWellFormed (execInput d c s)
    unfold execInput
    split
    · exact raisesWellFormed_invoke fun reply t => raisesWellFormed_complete _
    · exact raisesWellFormed_raise rfl s
  | output src c =>
    show RaisesWellFormed (execOutput src c s)
    unfold execOutput
    split
    · exact raisesWellFormed_withReg fun v => raisesWellFormed_invoke fun _ t => raisesWellFormed_complete _
    · exact raisesWellFormed_raise rfl s
  | compare a b => exact raisesWellFormed_withRegs fun va vb => raisesWellFormed_complete _
  | jump k target =>
    show RaisesWellFormed (execJump k target s)
    unfold execJump
    split
    · exact raisesWellFormed_next nofun
    · exact raisesWellFormed_complete s
  | logicalnot d a => exact raisesWellFormed_withReg fun va => raisesWellFormed_complete _
  | halt =>
    show RaisesWellFormed (execHalt s)
    unfold execHalt notify
    split
    · exact raisesWellFormed_invoke fun _ t => raisesWellFormed_complete _
    · exact raisesWellFormed_complete _
  | divide d a b => exact raisesWellFormed_binary (fun _ _ _ h => divideOp_error h ▸ rfl) d a b s
  | modulus d a b => exact raisesWellFormed_binary (fun _ _ _ h => modulusOp_error h ▸ rfl) d a b s
  | leftshift d a b => exact raisesWellFormed_binary (fun va vb e h => absurd h (leftshiftOp_ne_error va vb e)) d a b s
  | rightshift d a b => exact raisesWellFormed_binary (fun va vb e h => absurd h (rightshiftOp_ne_error va vb e)) d a b s
  | add d a b => exact raisesWellFormed_binary (op := addOp) nofun d a b s
  | subtract d a b => exact raisesWellFormed_binary (op := subtractOp) nofun d a b s
  | multiply d a b => exact raisesWellFormed_binary (op := multiplyOp) nofun d a b s
  | logicaland d a b => exact raisesWellFormed_binary (op := andOp) nofun d a b s
  | logicalor d a b => exact raisesWellFormed_binary (op := orOp) nofun d a b s
  | logicalxor d a b => exact raisesWellFormed_binary (op := xorOp) nofun d a b s

/-- The errors of the fetch and decode are well formed: an `InvalidOpcode` carries 16 to 254 (R80). -/
theorem fetchInstr_error_wellFormed {s : State} {e : Fault} (h : s.fetchInstr = .error e) : e.wellFormed = true := by
  obtain hf | ⟨w, opcode, -, ho, rfl⟩ := fetchInstr_error h
  · obtain ⟨hx, -⟩ | ⟨hx, -⟩ | ⟨w, hx, -⟩ := s.fetch_cases
    · cases hx.symm.trans hf; rfl
    · cases hx.symm.trans hf; rfl
    · cases hx.symm.trans hf
  · obtain ⟨rfl, hlo, hhi⟩ := decode_error ho
    exact decide_eq_true ⟨hlo, hhi⟩

/-- Every error a step raises is well formed. -/
theorem raisesWellFormed_step (s : State) : RaisesWellFormed (step s) := by
  obtain ⟨-, e⟩ | ⟨-, x, hx, e⟩ | ⟨-, i, -, e⟩ := step_cases s
  · rw [e]; exact raisesWellFormed_next nofun
  · rw [e]; exact raisesWellFormed_raise (fetchInstr_error_wellFormed hx) s
  · rw [e]; exact raisesWellFormed_exec i s

/-! ## The invariant -/

/-- The invariant looks at the program store, the fault log and the result: a change that keeps the first two and reports no error
keeps it. -/
theorem Consistent.of_no_error {s t : State} (h : Consistent s) (hprog : t.prog = s.prog) (hlog : t.faultLog = s.faultLog)
    (hres : ∀ e, t.result ≠ some (.error e)) : Consistent t := by
  obtain ⟨hwf, hfaults, -⟩ := h
  exact ⟨hprog ▸ hwf, hlog ▸ hfaults, fun e he => absurd he (hres e)⟩

/-- Taking a well-formed error keeps the invariant (R184, R190). -/
theorem Consistent.raised {s : State} {e : Fault} (h : Consistent s) (he : e.wellFormed = true) :
    Consistent ((s.setResult (.error e)).addFault e) := by
  obtain ⟨hwf, hfaults, -⟩ := h
  refine ⟨hwf, fun x hx => ?_, fun x hx => ?_⟩
  · obtain hold | hnew := List.mem_append.mp hx
    · exact hfaults x hold
    · rwa [List.mem_singleton.mp hnew]
  · cases hx
    exact List.getLast?_concat

/-- A step keeps the invariant. -/
theorem step_keeps_consistent {s t : State} (hs : Consistent s) (h : step s = .next t) : Consistent t := by
  obtain ⟨-, rfl⟩ | ⟨-, e, rfl⟩ | ⟨-, i, b, hb, rfl⟩ := step_next h
  · exact hs.of_no_error rfl rfl nofun
  · exact hs.raised (raisesWellFormed_step s _ e h rfl)
  · obtain ⟨hprog, -, -, -, hlog⟩ := hb.kept
    exact hs.of_no_error hprog hlog nofun

/-! ## The obligations -/

/-- Settles O26: a completed instruction keeps the program and the log, and an error a step logs is well formed. -/
theorem stepsKeepTheInvariant : Obligations.StepsKeepTheInvariant :=
  fun _ _ => step_keeps_consistent

/-- Settles O27: the store holds no program and the records are empty. -/
theorem resetMeetsTheInvariant : Obligations.ResetMeetsTheInvariant :=
  ⟨State.reset_prog_wf, nofun, nofun⟩

/-- Settles O14: the fetch's first check is for a program with words. -/
theorem stepWithoutProgramRaisesEmptyProgram : Obligations.StepWithoutProgramRaisesEmptyProgram := by
  intro s hs hprog
  refine step_of_fetch_error hs ?_
  obtain h | h := hprog
  · simp [State.fetch, h]
  · simp [State.fetch, h]

/-- Settles O15: the three ends of the fetch (`State.fetch_cases`), of which IC and the length of the program select one. -/
theorem counterOutsideTheProgramRaisesInvalidAddress : Obligations.CounterOutsideTheProgramRaisesInvalidAddress := by
  intro s words hs hprog hne
  have hgetD : s.prog.getD [] = words := by rw [hprog]; rfl
  obtain ⟨-, hnil⟩ | ⟨hf, hout⟩ | ⟨w, hf, hpos, hw⟩ := s.fetch_cases
  · exact absurd (hgetD.symm.trans hnil) hne
  · rw [hgetD] at hout
    exact ⟨fun _ => step_of_fetch_error hs hf, fun hin => by omega⟩
  · rw [hgetD] at hw
    obtain ⟨hlt, -⟩ := List.getElem?_eq_some_iff.mp hw
    exact ⟨fun hout => by omega, fun _ => ⟨w, hw, hf⟩⟩

/-- Settles O16: the decode error is met at the step; the binary form and the load port look at no opcode. -/
theorem illegalOpcodeRaisesWhenExecuted : Obligations.IllegalOpcodeRaisesWhenExecuted := by
  intro w hlo hhi
  refine ⟨fun s hs => step_of_decode_error hs (decode_of_illegal hlo hhi), fun words _ => ?_⟩
  exact ⟨decodeProgram_encodeProgram words, fun s hlen =>
    ⟨loadProgram_of_le s hlen, (loadBinary_encodeProgram s words).trans (loadProgram_of_le s hlen)⟩⟩

/-- Settles O17: the fetch gives the word at IC. -/
theorem stepRunsTheDecodedInstruction : Obligations.StepRunsTheDecodedInstruction :=
  fun _ _ _ => step_of_decode_ok

/-- Settles O18: an instruction that completes ends in `completedFrom`, with IC at `nextIc`. -/
theorem completedInstructionSetsTheCounter : Obligations.CompletedInstructionSetsTheCounter := by
  intro i s t h hok
  obtain ⟨e, rfl⟩ | ⟨b, -, rfl⟩ := exec_next h
  · cases hok
  · rfl

/-- Settles O19: of the three next states of a step only the recorded error reports one. -/
theorem raisingStepChangesNoArchitecturalState : Obligations.RaisingStepChangesNoArchitecturalState := by
  intro s t e h he
  obtain ⟨-, rfl⟩ | ⟨-, x, rfl⟩ | ⟨-, i, b, -, rfl⟩ := step_next h
  · cases he
  · cases he
    exact ⟨⟨rfl, rfl, rfl, rfl, rfl, rfl, rfl, rfl⟩, rfl, rfl, rfl⟩
  · cases he

/-- Settles O20: each of the three next states of a step reports its own result. -/
theorem stepReportsOneResult : Obligations.StepReportsOneResult := by
  intro s t h
  obtain ⟨hs, rfl⟩ | ⟨hs, e, rfl⟩ | ⟨hs, i, b, hb, rfl⟩ := step_next h
  · exact ⟨fun _ => ⟨rfl, rfl⟩, fun hn => by cases hs.symm.trans hn⟩
  · exact ⟨fun hn => (by cases hs.symm.trans hn), fun _ => .inr ⟨e, rfl, rfl⟩⟩
  · obtain ⟨-, -, -, -, hlog⟩ := hb.kept
    exact ⟨fun hn => (by cases hs.symm.trans hn), fun _ => .inl ⟨rfl, hlog⟩⟩

/-- Settles O22: neither an error nor a completed instruction writes them. -/
theorem noInstructionWritesProgramTablesOrSubscriber : Obligations.NoInstructionWritesProgramTablesOrSubscriber := by
  intro i s t h
  obtain ⟨e, rfl⟩ | ⟨b, hb, rfl⟩ := exec_next h
  · exact ⟨rfl, rfl, rfl, rfl⟩
  · obtain ⟨hprog, hin, hout, hsub, -⟩ := hb.kept
    exact ⟨hprog, hin, hout, hsub⟩

/-- Settles O30: errors are taken and not answered, and what an instruction refuses is named by the next reply. -/
theorem onlyMisbehavingCallablesAreRefused : Obligations.OnlyMisbehavingCallablesAreRefused := by
  refine ⟨step_ne_fault, fun s r h => ?_⟩
  obtain ⟨i, hi⟩ := step_refused h
  have hc := exec_cases i s
  rw [hi] at hc
  cases hc with
  | failed hr => exact .inl ⟨rfl, hr⟩
  | reentered hr => exact .inr ⟨rfl, hr⟩

end Sys2Proof.Machine

/-! PROOFS. The instructions (spec/40_load_io.md to spec/45_halt.md): the arithmetic of 16-bit words, and the whole next state of each
instruction. -/

namespace Sys2Proof.Machine

/-! ## The wrapped integers (R8, R9) -/

/-- The signed value of a wrapped integer is its balanced remainder (R8). -/
theorem wrap16_toInt_eq_bmod (n : Int) : (wrap16 n).toInt = n.bmod 65536 := BitVec.toInt_ofInt n

/-- An `i16` is its own wrapped value (R8). -/
theorem wrap16_toInt_of_range {n : Int} (hlo : -32768 ≤ n) (hhi : n ≤ 32767) : (wrap16 n).toInt = n := by
  rw [wrap16_toInt_eq_bmod, Int.bmod_def]
  split <;> omega

theorem wrap16_add (m n : Int) : wrap16 (m + n) = wrap16 m + wrap16 n := BitVec.ofInt_add m n

theorem wrap16_mul (m n : Int) : wrap16 (m * n) = wrap16 m * wrap16 n := BitVec.ofInt_mul m n

theorem wrap16_neg (n : Int) : wrap16 (-n) = -wrap16 n := BitVec.ofInt_neg

theorem wrap16_sub (m n : Int) : wrap16 (m - n) = wrap16 m - wrap16 n := by
  rw [sub_eq_add_neg, wrap16_add, wrap16_neg, BitVec.sub_eq_add_neg]

/-- A number that is not negative wraps as the natural number it is. -/
theorem wrap16_natCast (n : Nat) : wrap16 n = BitVec.ofNat 16 n := BitVec.ofInt_natCast 16 n

/-- A word is 0 exactly where its signed reading is. -/
theorem toInt_eq_zero_iff (v : Word) : v.toInt = 0 ↔ v = 0 := BitVec.toInt_inj (y := 0)

/-! ## The arithmetic of words (R121 to R125, R140, R141, R150) -/

/-- The difference Compare leaves in CMP is the two's-complement one (R150). -/
theorem difference_eq_sub (va vb : Word) : difference va vb = va - vb := by
  rw [difference, wrap16_sub, wrap16_toInt, wrap16_toInt]

/-- Divide by any divisor but 0 (R124). -/
theorem divideOp_eq {va vb : Word} (h : vb ≠ 0) : divideOp va vb = .ok (wrap16 (va.toInt.tdiv vb.toInt)) :=
  if_neg (mt (toInt_eq_zero_iff vb).mp h)

/-- Modulus by any divisor but 0 (R125): the remainder of the truncating division. -/
theorem modulusOp_eq {va vb : Word} (h : vb ≠ 0) : modulusOp va vb = .ok (wrap16 (va.toInt.tmod vb.toInt)) := by
  rw [Int.tmod_def]
  exact if_neg (mt (toInt_eq_zero_iff vb).mp h)

/-- A remainder is smaller than its divisor in magnitude (R125). -/
theorem natAbs_tmod_lt {m n : Int} (h : n ≠ 0) : (m.tmod n).natAbs < n.natAbs := by
  rw [Int.natAbs_tmod]
  exact Nat.mod_lt _ (Int.natAbs_pos.mpr h)

/-- A remainder has the dividend's sign or is 0 (R125). -/
theorem tmod_nonpos_of_nonpos {m : Int} (n : Int) (h : m ≤ 0) : m.tmod n ≤ 0 := by
  have hneg : 0 ≤ (-m).tmod n := Int.tmod_nonneg n (by omega)
  rw [Int.neg_tmod] at hneg
  omega

/-- The remainder is an `i16`, so the wrap of R125 changes nothing. -/
theorem wrap16_tmod_toInt (va : Word) {vb : Word} (h : vb.toInt ≠ 0) :
    (wrap16 (va.toInt.tmod vb.toInt)).toInt = va.toInt.tmod vb.toInt := by
  have hlt := natAbs_tmod_lt (m := va.toInt) h
  have hlo := BitVec.le_toInt vb
  have hhi := BitVec.toInt_lt (x := vb)
  exact wrap16_toInt_of_range (by omega) (by omega)

/-- The wrapped quotient and the remainder give the dividend back (R125). -/
theorem wrap16_division_identity (va vb : Word) :
    wrap16 ((wrap16 (va.toInt.tdiv vb.toInt)).toInt * vb.toInt + va.toInt.tmod vb.toInt) = va := by
  calc wrap16 ((wrap16 (va.toInt.tdiv vb.toInt)).toInt * vb.toInt + va.toInt.tmod vb.toInt)
      = wrap16 (va.toInt.tdiv vb.toInt * vb.toInt + va.toInt.tmod vb.toInt) := by
        simp only [wrap16_add, wrap16_mul, wrap16_toInt]
    _ = wrap16 va.toInt := by rw [mul_comm, add_comm, Int.tmod_add_mul_tdiv]
    _ = va := wrap16_toInt va

/-- The quotient is the signed division of words (R124). -/
theorem wrap16_tdiv (va vb : Word) : wrap16 (va.toInt.tdiv vb.toInt) = va.sdiv vb := by
  apply BitVec.eq_of_toInt_eq
  rw [wrap16_toInt_eq_bmod, BitVec.toInt_sdiv]

/-- The remainder is the signed remainder of words (R125). -/
theorem wrap16_tmod (va vb : Word) : wrap16 (va.toInt.tmod vb.toInt) = va.srem vb := by
  rw [← BitVec.toInt_srem, wrap16_toInt]

/-- The counts of R140 and R141 are the same read as signed or as unsigned. -/
theorem toInt_of_count {vb : Word} (h : 0 ≤ vb.toInt) : vb.toInt = vb.toNat :=
  BitVec.toInt_eq_toNat_of_lt (BitVec.toInt_pos_iff.mp h)

/-- LeftShift for every count (R140, R142). -/
theorem leftshiftOp_eq (va vb : Word) : leftshiftOp va vb =
    .ok (if 0 ≤ vb.toInt ∧ vb.toInt ≤ 15 then wrap16 (va.toInt * 2 ^ vb.toNat) else Config.shiftOutOfRange .left va vb) := by
  by_cases h : 0 ≤ vb.toInt ∧ vb.toInt ≤ 15
  · have hcount : vb.toInt.toNat = vb.toNat := by rw [toInt_of_count h.1, Int.toNat_natCast]
    simp [leftshiftOp, countInRange, h, hcount]
  · simp [leftshiftOp, countInRange, h]

/-- RightShift for every count (R141, R142). -/
theorem rightshiftOp_eq (va vb : Word) : rightshiftOp va vb =
    .ok (if 0 ≤ vb.toInt ∧ vb.toInt ≤ 15 then wrap16 (va.toInt.fdiv (2 ^ vb.toNat))
      else Config.shiftOutOfRange .right va vb) := by
  by_cases h : 0 ≤ vb.toInt ∧ vb.toInt ≤ 15
  · have hcount : vb.toInt.toNat = vb.toNat := by rw [toInt_of_count h.1, Int.toNat_natCast]
    simp [rightshiftOp, countInRange, h, hcount]
  · simp [rightshiftOp, countInRange, h]

/-- A count up to 15 is in range (R140, R141). -/
theorem count_in_range {vb : Word} (h : vb.toNat ≤ 15) : 0 ≤ vb.toInt ∧ vb.toInt ≤ 15 := by
  rw [BitVec.toInt_eq_toNat_of_lt (by omega)]
  omega

/-- The wrapped product with a power of two is the left shift of words (R140). -/
theorem wrap16_mul_two_pow (va : Word) (n : Nat) : wrap16 (va.toInt * 2 ^ n) = va <<< n := by
  have hpow : wrap16 (2 ^ n) = BitVec.twoPow 16 n := by
    rw [show (2 : Int) ^ n = ((2 ^ n : Nat) : Int) by norm_cast, wrap16_natCast]
    exact BitVec.eq_of_toNat_eq (by simp)
  rw [wrap16_mul, wrap16_toInt, hpow, BitVec.shiftLeft_eq_mul_twoPow]

/-- The floored quotient by a power of two is the arithmetic right shift of words (R141). -/
theorem wrap16_fdiv_two_pow (va : Word) (n : Nat) : wrap16 (va.toInt.fdiv (2 ^ n)) = va.sshiftRight n := by
  have hfloor : va.toInt.fdiv (2 ^ n) = (va.sshiftRight n).toInt := by
    rw [BitVec.toInt_sshiftRight, Int.shiftRight_eq_div_pow, Int.fdiv_eq_ediv_of_nonneg _ (by positivity)]
    norm_cast
  rw [hfloor, wrap16_toInt]

/-- The complement is -va - 1 (R162). -/
theorem complement_eq (va : Word) : ~~~va = wrap16 (-va.toInt - 1) := by
  rw [wrap16_sub, wrap16_neg, wrap16_toInt, BitVec.neg_eq_not_add]
  exact (BitVec.add_sub_cancel _ _).symm

/-! ## The shared operations, case by case -/

/-- The end of a completed step, in the terms of the claims (R35). -/
theorem complete_eq_advanced (s : State) : complete s = .next (advanced s) := complete_eq s

/-- Writing the destination and completing, in the terms of the claims (R35). -/
theorem writeBack_eq (d : Byte) (v : Word) (s : State) : writeBack d v s = .next (advanced (withValue s d v)) :=
  complete_eq (s.setReg d v)

section
variable {a b : Byte} {s : State} {k : Word → Word → Answer}

theorem withRegs_of_none_left (ha : s.reg a = none) : withRegs a b s k = raise (.uninitializedRegister a) s :=
  withReg_of_none ha _

theorem withRegs_of_none_right {va : Word} (ha : s.reg a = some va) (hb : s.reg b = none) :
    withRegs a b s k = raise (.uninitializedRegister b) s :=
  (withReg_of_some ha _).trans (withReg_of_none hb _)

theorem withRegs_of_some {va vb : Word} (ha : s.reg a = some va) (hb : s.reg b = some vb) : withRegs a b s k = k va vb :=
  (withReg_of_some ha _).trans (withReg_of_some hb _)

end

/-- An instruction that runs in the frame of R120 follows it, with any operation equal to its own. -/
theorem followsFrame_of_binary {make : Byte → Byte → Byte → Instr} {op op' : Word → Word → Except Fault Word}
    (hexec : ∀ d a b s, exec (make d a b) s = binary op d a b s) (hop : ∀ va vb, op va vb = op' va vb) :
    FollowsFrame make op' := by
  intro d a b s
  rw [hexec]
  refine ⟨fun ha => withRegs_of_none_left ha, fun va ha hb => withRegs_of_none_right ha hb, ?_, ?_⟩
  · intro va vb v ha hb hv
    rw [binary, withRegs_of_some ha hb, hop, hv]
    exact writeBack_eq d v s
  · intro va vb e ha hb he
    rw [binary, withRegs_of_some ha hb, hop, he]
    rfl

section
variable {s : State} {rest : List Reply} {k : Option Word → State → Answer}

/-- A callable returns when the replies are used up (log 6). -/
theorem invoke_of_nil (h : s.replies = []) : invoke s k = k none s := by
  simp [invoke, h]

theorem invoke_of_returns {v : Word} (h : s.replies = .returns v :: rest) : invoke s k = k (some v) (s.setReplies rest) := by
  simp [invoke, h]

theorem invoke_of_fails (h : s.replies = .fails :: rest) : invoke s k = .refused .callableFailed := by
  simp [invoke, h]

theorem invoke_of_callsBack (h : s.replies = .callsBack :: rest) : invoke s k = .refused .callbackReentered := by
  simp [invoke, h]

end

/-- Input on a bound channel reads it (R111). -/
theorem exec_input_of_bound {d c : Byte} {s : State} (h : s.inputBound c = true) :
    exec (.input d c) s = inRead c s fun v t => writeBack d v t :=
  if_pos h

/-- Output of a written register to a bound channel writes the channel (R112). -/
theorem exec_output_of_bound {src c : Byte} {s : State} {v : Word} (h : s.outputBound c = true) (hv : s.reg src = some v) :
    exec (.output src c) s = outWrite c v s complete :=
  (if_pos h).trans (withReg_of_some hv _)

/-- Halt with a subscriber calls it (R170). -/
theorem exec_halt_of_subscriber {s : State} (h : s.haltSub = true) :
    exec .halt s = invoke (s.setHalted true) fun _ t => complete (t.addEvent .haltNotify) :=
  if_pos h

/-- Jump in every state (R152). -/
theorem exec_jump (k : Cond) (target : Word) (s : State) :
    exec (.jump k target) s = .next { s with ic := if condHolds k s.cmp then target else s.ic + 1, result := some .ok } := by
  show execJump k target s = _
  unfold execJump
  split
  · rfl
  · exact complete_eq s

/-- Halt never raises: what it leaves, whatever the subscriber does (R170). -/
theorem exec_halt_next {s t : State} (h : exec .halt s = .next t) :
    ∃ b, Body .halt s b ∧ t = completedFrom b (s.ic + 1) := by
  cases hs : s.haltSub with
  | true =>
    obtain ⟨_, rest, e, -⟩ | ⟨e, -⟩ | ⟨e, -⟩ := invoke_cases (s.setHalted true) fun _ u => complete (u.addEvent .haltNotify)
    · rw [exec_halt_of_subscriber hs, e, complete_eq] at h
      cases h
      exact ⟨_, ⟨rest, by rw [if_pos hs]; rfl⟩, rfl⟩
    · rw [exec_halt_of_subscriber hs, e] at h; cases h
    · rw [exec_halt_of_subscriber hs, e] at h; cases h
  | false =>
    have hexec : exec .halt s = complete (s.setHalted true) := if_neg (by simp [hs])
    rw [hexec, complete_eq] at h
    cases h
    exact ⟨_, ⟨s.replies, by rw [if_neg (by simp [hs]), List.append_nil]; rfl⟩, rfl⟩

/-! ## The obligations: values and conditions -/

/-- Settles O9: the low byte added to 256 times the high byte is the pattern `join` spells, and `split` cuts it there. -/
theorem codecIsAnExactInversePair : Obligations.CodecIsAnExactInversePair := by
  refine ⟨fun h l => ?_, fun v => ⟨?_, ?_⟩, join_split, split_join⟩
  · have hnat : wrap16 (l.toNat + h.toNat * 256 : Nat) = join h l := by
      rw [wrap16_natCast, Nat.add_comm, ← join_toNat, BitVec.ofNat_toNat, BitVec.setWidth_eq]
    rw [wrap16_add, wrap16_toInt, ← wrap16_add, ← hnat]
    norm_cast
  · apply BitVec.eq_of_toNat_eq
    have hlt := v.isLt
    rw [split, BitVec.extractLsb'_toNat, BitVec.toNat_ofInt, Int.fdiv_eq_ediv_of_nonneg _ (by decide),
      BitVec.toInt_eq_toNat_cond, Nat.shiftRight_eq_div_pow]
    split <;> omega
  · simp [split]

/-- Settles O12: the balanced remainder modulo 65536 has these properties, and they determine it. -/
theorem wrapGivesTheCongruentSignedValue : Obligations.WrapGivesTheCongruentSignedValue := by
  intro n
  rw [wrap16_toInt_eq_bmod, Int.bmod_def]
  split <;> exact ⟨by omega, by omega, by omega, fun r _ _ _ => by omega⟩

/-- Settles O47: the integer division identity, wrapped. -/
theorem quotientAndRemainderMeetTheDivisionIdentity : Obligations.QuotientAndRemainderMeetTheDivisionIdentity := by
  intro va vb hvb
  have hne : vb.toInt ≠ 0 := mt (toInt_eq_zero_iff vb).mp hvb
  refine ⟨_, _, divideOp_eq hvb, modulusOp_eq hvb, ?_⟩
  rw [wrap16_tmod_toInt va hne]
  exact ⟨wrap16_division_identity va vb, natAbs_tmod_lt hne, Int.tmod_nonneg _, tmod_nonpos_of_nonpos _⟩

/-- Settles O48: `wrap16` carries the integer operations to those of words. -/
theorem arithmeticIsTwosComplement : Obligations.ArithmeticIsTwosComplement := by
  intro va vb
  refine ⟨?_, ?_, ?_, difference_eq_sub va vb, fun hvb => ⟨?_, ?_⟩, fun hcount => ⟨?_, ?_⟩⟩
  · rw [addOp, wrap16_add, wrap16_toInt, wrap16_toInt]
  · rw [subtractOp, wrap16_sub, wrap16_toInt, wrap16_toInt]
  · rw [multiplyOp, wrap16_mul, wrap16_toInt, wrap16_toInt]
  · rw [divideOp_eq hvb, wrap16_tdiv]
  · rw [modulusOp_eq hvb, wrap16_tmod]
  · rw [leftshiftOp_eq, if_pos (count_in_range hcount), wrap16_mul_two_pow]
  · rw [rightshiftOp_eq, if_pos (count_in_range hcount), wrap16_fdiv_two_pow]

/-- Settles O49: by the order of the signed CMP and 0, and the difference's exact value where it does not wrap. -/
theorem conditionsOrderTheComparedValues : Obligations.ConditionsOrderTheComparedValues := by
  intro va vb
  refine ⟨?_, fun cmp => ⟨?_, ?_, ?_, ?_⟩, fun hlo hhi => ?_⟩
  · rw [difference_eq_sub]
    exact sub_eq_zero
  · obtain h | h | h := Int.lt_trichotomy cmp.toInt 0
    · simp [condHolds, h, h.ne, h.le]
    · simp [condHolds, h]
    · simp [condHolds, h, h.ne', h.le]
  · simp only [condHolds, ← decide_not, not_lt]
  · simp only [condHolds, ← decide_not, not_lt]
  · simp only [condHolds, decide_not]
  · have hdiff : (difference va vb).toInt = va.toInt - vb.toInt := wrap16_toInt_of_range hlo hhi
    simp only [condHolds, hdiff, decide_eq_true_eq]
    omega

/-! ## The obligations: one instruction each -/

/-- Settles O32: the immediate is written back. -/
theorem loadWritesItsImmediate : Obligations.LoadWritesItsImmediate :=
  writeBack_eq

/-- Settles O33: the channel check, then the producer's reply. -/
theorem inputReadsItsChannel : Obligations.InputReadsItsChannel := by
  refine fun d c s => ⟨fun h => if_neg (by simp [h]), fun h hr => ?_, fun v rest h hr => ?_⟩
  · rw [exec_input_of_bound h, inRead, invoke_of_nil hr]
    exact writeBack_eq d _ _
  · rw [exec_input_of_bound h, inRead, invoke_of_returns hr]
    exact writeBack_eq d _ _

/-- Settles O34: the channel check, the register read, then the consumer's reply. -/
theorem outputWritesItsChannel : Obligations.OutputWritesItsChannel := by
  refine fun src c s => ⟨fun h => if_neg (by simp [h]), fun h hn => (if_pos h).trans (withReg_of_none hn _),
    fun v h hv hr => ?_, fun v x rest h hv hr => ?_⟩
  · rw [exec_output_of_bound h hv, outWrite, invoke_of_nil hr]
    exact complete_eq_advanced _
  · rw [exec_output_of_bound h hv, outWrite, invoke_of_returns hr]
    exact complete_eq_advanced _

/-- Settles O31: a reply that is no return ends the call, and with it the instruction. -/
theorem misbehavingCallableIsRefused : Obligations.MisbehavingCallableIsRefused := by
  refine fun s rest d c src v => ⟨fun h => ?_, fun h hv => ?_, fun h => ?_⟩
  · rw [exec_input_of_bound h]
    exact ⟨invoke_of_fails, invoke_of_callsBack⟩
  · rw [exec_output_of_bound h hv]
    exact ⟨invoke_of_fails, invoke_of_callsBack⟩
  · rw [exec_halt_of_subscriber h]
    exact ⟨invoke_of_fails (s := s.setHalted true), invoke_of_callsBack (s := s.setHalted true)⟩

/-- Settles O35: Add runs in the frame of R120. -/
theorem addWritesTheWrappedSum : Obligations.AddWritesTheWrappedSum :=
  followsFrame_of_binary (op := addOp) (fun _ _ _ _ => rfl) fun _ _ => rfl

/-- Settles O36: Subtract runs in the frame of R120. -/
theorem subtractWritesTheWrappedDifference : Obligations.SubtractWritesTheWrappedDifference :=
  followsFrame_of_binary (op := subtractOp) (fun _ _ _ _ => rfl) fun _ _ => rfl

/-- Settles O37: Multiply runs in the frame of R120. -/
theorem multiplyWritesTheWrappedProduct : Obligations.MultiplyWritesTheWrappedProduct :=
  followsFrame_of_binary (op := multiplyOp) (fun _ _ _ _ => rfl) fun _ _ => rfl

/-- Settles O38: Divide runs in the frame of R120, and a divisor is 0 as a word exactly where its signed reading is. -/
theorem divideWritesTheTruncatedQuotient : Obligations.DivideWritesTheTruncatedQuotient :=
  followsFrame_of_binary (op := divideOp) (fun _ _ _ _ => rfl) fun _ vb => by simp only [divideOp, toInt_eq_zero_iff vb]

/-- Settles O39: Modulus runs in the frame of R120, and a divisor is 0 as a word exactly where its signed reading is. -/
theorem modulusWritesTheTruncatedRemainder : Obligations.ModulusWritesTheTruncatedRemainder :=
  followsFrame_of_binary (op := modulusOp) (fun _ _ _ _ => rfl) fun _ vb => by simp only [modulusOp, toInt_eq_zero_iff vb]

/-- Settles O40: LeftShift runs in the frame of R120, for every count. -/
theorem leftshiftMultipliesByThePowerOfTwo : Obligations.LeftshiftMultipliesByThePowerOfTwo :=
  followsFrame_of_binary (fun _ _ _ _ => rfl) leftshiftOp_eq

/-- Settles O41: RightShift runs in the frame of R120, for every count. -/
theorem rightshiftDividesByThePowerOfTwo : Obligations.RightshiftDividesByThePowerOfTwo :=
  followsFrame_of_binary (fun _ _ _ _ => rfl) rightshiftOp_eq

/-- Settles O42: the three run in the frame of R120, and a word is its bits. -/
theorem logicalOperationsAreBitwise : Obligations.LogicalOperationsAreBitwise := by
  refine ⟨followsFrame_of_binary (op := andOp) (fun _ _ _ _ => rfl) fun va vb => congrArg Except.ok ?_,
    followsFrame_of_binary (op := orOp) (fun _ _ _ _ => rfl) fun va vb => congrArg Except.ok ?_,
    followsFrame_of_binary (op := xorOp) (fun _ _ _ _ => rfl) fun va vb => congrArg Except.ok ?_⟩
  · exact BitVec.eq_of_getElem_eq fun n hn => by simp
  · exact BitVec.eq_of_getElem_eq fun n hn => by simp
  · exact BitVec.eq_of_getElem_eq fun n hn => by simp

/-- Settles O43: the source is read and its complement written back. -/
theorem logicalnotWritesTheComplement : Obligations.LogicalnotWritesTheComplement := by
  refine fun d a s => ⟨fun ha => withReg_of_none ha _, fun va ha => ?_⟩
  calc exec (.logicalnot d a) s
      = writeBack d (~~~va) s := withReg_of_some ha _
    _ = .next (advanced (withValue s d (~~~va))) := writeBack_eq d _ s
    _ = .next (advanced (withValue s d (wrap16 (-va.toInt - 1)))) := by rw [complement_eq]

/-- Settles O44: both sources are read in order, then CMP is written. -/
theorem compareWritesTheWrappedDifference : Obligations.CompareWritesTheWrappedDifference :=
  fun _ _ _ => ⟨fun ha => withRegs_of_none_left ha, fun _ ha hb => withRegs_of_none_right ha hb,
    fun _ _ ha hb => (withRegs_of_some ha hb).trans (complete_eq_advanced _)⟩

/-- Settles O45: the condition chooses between the two ends of a step. -/
theorem jumpGoesToItsTargetWhereTheConditionHolds : Obligations.JumpGoesToItsTargetWhereTheConditionHolds :=
  exec_jump

/-- Settles O6: a code from 7 on decodes to a reserved one, which never holds. -/
theorem reservedConditionCodesNeverJump : Obligations.ReservedConditionCodesNeverJump := by
  intro k h l s hk
  refine ⟨?_, exec_jump (.reserved k) (join h l) s⟩
  calc decode ⟨0x0B, k, h, l⟩
      = .ok (.jump (decodeCond k) (join h l)) := rfl
    _ = .ok (.jump (.reserved k) (join h l)) := by rw [decodeCond_of_seven_le hk]

/-- Settles O8: the target is put into IC as it is, and the next fetch finds a negative one outside the program. -/
theorem jumpTargetIsAbsoluteAndMayBeNegative : Obligations.JumpTargetIsAbsoluteAndMayBeNegative := by
  refine ⟨fun k h l => ⟨rfl, join_toInt h l⟩, join_split, fun k t s hk => ⟨?_, fun w words ht hs hprog => ?_⟩⟩
  · rw [exec_jump, if_pos hk]
  · exact step_of_fetch_error hs (by simp [State.fetch, hprog, ht])

/-- Settles O46: HALTED is set, then the subscriber called where there is one. -/
theorem haltSetsHaltedAndNotifiesOnce : Obligations.HaltSetsHaltedAndNotifiesOnce := by
  refine fun s => ⟨fun h => ?_, fun h hr => ?_, fun v rest h hr => ?_⟩
  · calc exec .halt s
        = complete (s.setHalted true) := if_neg (by simp [h])
      _ = .next (advanced { s with halted := true }) := complete_eq_advanced _
  · rw [exec_halt_of_subscriber h, invoke_of_nil (s := s.setHalted true) hr]
    exact complete_eq_advanced _
  · rw [exec_halt_of_subscriber h, invoke_of_returns (s := s.setHalted true) hr]
    exact complete_eq_advanced _

/-- Settles O29: an error adds no event, and a completed instruction those of its `Body`. -/
theorem eventsAreThoseOfTheInstruction : Obligations.EventsAreThoseOfTheInstruction := by
  intro i s t h
  refine ⟨fun hnok => ?_, fun d c hi hok => ?_, fun src c hi hok => ?_, fun hi => ?_, fun hin hout hhalt => ?_⟩
  · obtain ⟨e, rfl⟩ | ⟨b, -, rfl⟩ := exec_next h
    · rfl
    · exact absurd rfl hnok
  · subst hi
    obtain ⟨e, rfl⟩ | ⟨b, ⟨v, rest, rfl⟩, rfl⟩ := exec_next h
    · cases hok
    · exact ⟨v, s.reg_setReg_self d v, rfl⟩
  · subst hi
    obtain ⟨e, rfl⟩ | ⟨b, ⟨v, rest, hv, rfl⟩, rfl⟩ := exec_next h
    · cases hok
    · exact ⟨v, hv, rfl⟩
  · subst hi
    obtain ⟨b, ⟨rest, rfl⟩, rfl⟩ := exec_halt_next h
    rfl
  · obtain ⟨e, rfl⟩ | ⟨b, hb, rfl⟩ := exec_next h
    · rfl
    · exact hb.events_eq hin hout hhalt

end Sys2Proof.Machine

/-! PROOFS. The host's ports (spec/10_state.md section 6) and runs (section 5): what a request writes, how a run goes on, and what
every step keeps along both. -/

namespace Sys2Proof.Machine

/-! ## How a run goes on -/

/-- A run that has not ended stands at its state when it has no steps left. -/
theorem runFor_zero_of_not_halted {s : State} (h : s.halted = false) : runFor 0 s = .running s := by
  simp [runFor, h]

/-- Without a step a run has ended only where HALTED is true (R37). -/
theorem runFor_zero_ended {s t : State} {how : RunEnd} (h : runFor 0 s = .ended how t) :
    s.halted = true ∧ how = .halted ∧ t = s := by
  cases hs : s.halted with
  | true => cases (runFor_of_halted hs 0).symm.trans h; exact ⟨rfl, rfl, rfl⟩
  | false => cases (runFor_zero_of_not_halted hs).symm.trans h

/-- The four ways a run that has steps left can go on, whatever the number of them (R37, R38). -/
inductive RunCase (s : State) : Prop where
  | halted (hs : s.halted = true)
  | raised (hs : s.halted = false) (t : State) (e : Fault) (hstep : step s = .next t) (he : t.result = some (.error e))
      (hrun : ∀ k, runFor (k + 1) s = .ended (.faulted e) t)
  | completed (t : State) (hstep : step s = .next t) (hrun : ∀ k, runFor (k + 1) s = runFor k t)
  | refused (r : Refusal) (hrun : ∀ k, runFor (k + 1) s = .refused r)

theorem run_cases (s : State) : RunCase s := by
  cases hs : s.halted with
  | true => exact .halted hs
  | false =>
    cases ht : step s with
    | next t =>
      rcases hr : t.result with _ | _ | _ | e
      · exact .completed t ht fun k => by simp [runFor, hs, ht, hr]
      · exact .completed t ht fun k => by simp [runFor, hs, ht, hr]
      · exact .completed t ht fun k => by simp [runFor, hs, ht, hr]
      · exact .raised hs t e ht hr fun k => by simp [runFor, hs, ht, hr]
    | fault e => exact absurd ht (step_ne_fault s e)
    | refused r => exact .refused r fun k => by simp [runFor, hs, ht]

/-- A step that completes is the first of the run (R37). -/
theorem runFor_succ_of_ok {s t : State} (hs : s.halted = false) (hstep : step s = .next t) (hok : t.result = some .ok)
    (k : Nat) : runFor (k + 1) s = runFor k t := by
  simp [runFor, hs, hstep, hok]

/-- How a run that has ended ended (R38). -/
theorem runFor_ended_how {k : Nat} {s t : State} {how : RunEnd} (h : runFor k s = .ended how t) :
    (how = .halted ∧ t.halted = true) ∨ ∃ e, how = .faulted e ∧ t.result = some (.error e) := by
  induction k generalizing s with
  | zero =>
    obtain ⟨hs, rfl, rfl⟩ := runFor_zero_ended h
    exact .inl ⟨rfl, hs⟩
  | succ k ih =>
    cases run_cases s with
    | halted hs => cases (runFor_of_halted hs _).symm.trans h; exact .inl ⟨rfl, hs⟩
    | raised hs u e hstep he hrun => cases (hrun k).symm.trans h; exact .inr ⟨e, rfl, he⟩
    | completed u hstep hrun => exact ih ((hrun k).symm.trans h)
    | refused r hrun => cases (hrun k).symm.trans h

/-- A run that has ended stays so (R38). -/
theorem runFor_ended_mono {k : Nat} {s t : State} {how : RunEnd} (h : runFor k s = .ended how t) (n : Nat) :
    runFor (k + n) s = .ended how t := by
  induction k generalizing s with
  | zero =>
    obtain ⟨hs, rfl, rfl⟩ := runFor_zero_ended h
    exact runFor_of_halted hs _
  | succ k ih =>
    rw [Nat.succ_add]
    cases run_cases s with
    | halted hs => exact (runFor_of_halted hs _).trans ((runFor_of_halted hs _).symm.trans h)
    | raised hs u e hstep he hrun => exact (hrun _).trans ((hrun k).symm.trans h)
    | completed u hstep hrun => exact (hrun _).trans (ih ((hrun k).symm.trans h))
    | refused r hrun => exact (hrun _).trans ((hrun k).symm.trans h)

/-- The failing step of a run that ended in an error (R38). -/
theorem runFor_faulted {k : Nat} {s t : State} {e : Fault} (h : runFor k s = .ended (.faulted e) t) :
    ∃ j u, j < k ∧ runFor j s = .running u ∧ step u = .next t ∧ t.result = some (.error e) := by
  induction k generalizing s with
  | zero => obtain ⟨-, hhow, -⟩ := runFor_zero_ended h; cases hhow
  | succ k ih =>
    cases run_cases s with
    | halted hs => cases (runFor_of_halted hs _).symm.trans h
    | raised hs u x hstep he hrun =>
      cases (hrun k).symm.trans h
      exact ⟨0, s, k.succ_pos, runFor_zero_of_not_halted hs, hstep, he⟩
    | completed u hstep hrun =>
      obtain ⟨j, v, hj, hrunning, hfail⟩ := ih ((hrun k).symm.trans h)
      exact ⟨j + 1, v, Nat.succ_lt_succ hj, (hrun j).trans hrunning, hfail⟩
    | refused r hrun => cases (hrun k).symm.trans h

/-- An unconditional jump to its own address changes nothing but the step result (R152). -/
theorem step_jump_to_itself {s : State} {w : InstrWord} (h : AtWord s w) (hd : decode w = .ok (.jump .unconditional s.ic)) :
    step s = .next (s.setResult .ok) :=
  (step_of_decode_ok h hd).trans (exec_jump .unconditional s.ic s)

/-! ## What every step keeps, runs and requests keep -/

/-- `P` holds of the state a run stands at. -/
def RunStatus.Holds (P : State → Prop) : RunStatus → Prop
  | .running s => P s
  | .ended _ s => P s
  | .refused _ => True

/-- What every step keeps, a run keeps. -/
theorem runFor_holds {P : State → Prop} (hstep : ∀ s t, P s → step s = .next t → P t) {s : State} (hs : P s) (k : Nat) :
    (runFor k s).Holds P := by
  induction k generalizing s with
  | zero =>
    cases hh : s.halted with
    | true => rw [runFor_of_halted hh]; exact hs
    | false => rw [runFor_zero_of_not_halted hh]; exact hs
  | succ k ih =>
    cases run_cases s with
    | halted hh => rw [runFor_of_halted hh]; exact hs
    | raised hh t e ht he hrun => rw [hrun]; exact hstep s t hs ht
    | completed t ht hrun => rw [hrun]; exact ih (hstep s t hs ht)
    | refused r hrun => rw [hrun]; trivial

/-- The state a step request leaves (R40). -/
theorem serve_step {s t : State} {r : Response} (h : serve .step s = .next (t, r)) : step s = .next t := by
  simp only [serve] at h
  split at h
  · next u hu => cases h; exact hu
  · cases h
  · cases h

/-- The state a run request leaves is the one its run stands at (R40). -/
theorem serve_run_holds {P : State → Prop} {limit : Nat} {s t : State} {r : Response} (h : serve (.run limit) s = .next (t, r))
    (hrun : (runFor limit s).Holds P) : P t := by
  simp only [serve] at h
  split at h
  · next u hu => cases h; rwa [hu] at hrun
  · next how u hu => cases h; rwa [hu] at hrun
  · cases h

/-- What every step and every other request keeps, all requests keep. -/
theorem serve_keeps {P : State → Prop} (hstep : ∀ s t, P s → step s = .next t → P t) {q : Request} {s t : State} {r : Response}
    (h : serve q s = .next (t, r)) (hs : P s) (hother : q ≠ .step → (∀ n, q ≠ .run n) → P t) : P t := by
  cases q with
  | step => exact hstep s t hs (serve_step h)
  | run limit => exact serve_run_holds h (runFor_holds hstep hs limit)
  | _ => exact hother nofun nofun

/-- A request but a step and a run keeps the records of the ports, and the registers and CMP too if it is no reset (R41 to R46). -/
theorem serve_frame {q : Request} {s t : State} {r : Response} (h : serve q s = .next (t, r)) (hstep : q ≠ .step)
    (hrun : ∀ n, q ≠ .run n) :
    t.result = s.result ∧ t.events = s.events ∧ t.faultLog = s.faultLog ∧ (q ≠ .reset → t.regs = s.regs ∧ t.cmp = s.cmp) := by
  cases q with
  | step => exact absurd rfl hstep
  | run limit => exact absurd rfl (hrun limit)
  | reset => cases h; exact ⟨rfl, rfl, rfl, fun hne => absurd rfl hne⟩
  | loadProgram words =>
    obtain ⟨p, hp⟩ := s.loadProgram_fst words
    cases h
    rw [hp]
    exact ⟨rfl, rfl, rfl, fun _ => ⟨rfl, rfl⟩⟩
  | loadBinary bytes =>
    obtain ⟨p, hp⟩ := s.loadBinary_fst bytes
    cases h
    rw [hp]
    exact ⟨rfl, rfl, rfl, fun _ => ⟨rfl, rfl⟩⟩
  | _ => cases h; exact ⟨rfl, rfl, rfl, fun _ => ⟨rfl, rfl⟩⟩

/-- A request but a step and a run keeps the form of the program store (R42; D21). -/
theorem serve_prog_wf {q : Request} {s t : State} {r : Response} (h : serve q s = .next (t, r)) (hstep : q ≠ .step)
    (hrun : ∀ n, q ≠ .run n) (hwf : s.prog.wf = true) : t.prog.wf = true := by
  cases q with
  | step => exact absurd rfl hstep
  | run limit => exact absurd rfl (hrun limit)
  | loadProgram words => cases h; exact s.loadProgram_wf words hwf
  | loadBinary bytes => cases h; exact s.loadBinary_wf bytes hwf
  | _ => cases h; exact hwf

/-! ## The obligations -/

/-- Settles O28: the requests keep the records and the form of the program store, and steps and runs the invariant. -/
theorem hostRequestsKeepTheInvariant : Obligations.HostRequestsKeepTheInvariant := by
  intro q s t r hs h
  refine serve_keeps (fun _ _ => step_keeps_consistent) h hs fun hstep hrun => ?_
  obtain ⟨hres, -, hlog, -⟩ := serve_frame h hstep hrun
  obtain ⟨hwf, hfaults, hlast⟩ := hs
  exact ⟨serve_prog_wf h hstep hrun hwf, hlog ▸ hfaults, hlog ▸ hres ▸ hlast⟩

/-- Settles O25: a step writes a value or nothing into a register, and no other request but reset writes one. -/
theorem writtenRegistersStayWritten : Obligations.WrittenRegistersStayWritten := by
  refine ⟨fun s t r => step_keeps_written, fun q s t a r hreset h hr => ?_⟩
  refine serve_keeps (P := fun u => u.reg r ≠ none) (fun _ _ hs hstep => step_keeps_written hstep hs) h hr fun hstep hrun => ?_
  obtain ⟨-, -, -, hregs⟩ := serve_frame h hstep hrun
  rwa [State.reg_congr (hregs hreset).1]

/-- Settles O50: reset writes every one of these fields with its value of R49. -/
theorem resetClearsAllButTheProgram : Obligations.ResetClearsAllButTheProgram := fun s =>
  ⟨s.resetRequest, rfl, fun r => (State.reg_congr (s := .reset) rfl r).trans (State.reset_reg r), rfl, rfl, rfl,
    fun c => ⟨State.reset_inputBound c, State.reset_outputBound c⟩, rfl, s.resetRequest_prog, rfl, rfl⟩

/-- Settles O51: by the fields of the reset state. -/
theorem powerOnIsTheResetStateWithNoProgram : Obligations.PowerOnIsTheResetStateWithNoProgram :=
  ⟨rfl, State.reset_reg, rfl, rfl, rfl, fun c => ⟨State.reset_inputBound c, State.reset_outputBound c⟩, rfl, rfl⟩

/-- Settles O52: by the frame of the requests; the reads answer with the state they were given. -/
theorem hostWritesNoRegisterAndNotCmp : Obligations.HostWritesNoRegisterAndNotCmp := by
  refine ⟨fun q s t a h hstep hrun hreset => ?_, fun s i => ⟨rfl, rfl, rfl, rfl⟩⟩
  obtain ⟨-, hevents, hlog, hregs⟩ := serve_frame h hstep hrun
  obtain ⟨hregs, hcmp⟩ := hregs hreset
  exact ⟨hregs, hcmp, hevents, hlog⟩

/-- Settles O53: the length decides what the load port does, and the binary form is decoded first. -/
theorem loadPortKeepsTheCounter : Obligations.LoadPortKeepsTheCounter := by
  refine fun s => ⟨fun words hlen => ?_, fun words hlen => ?_, fun bytes hlen => ?_⟩
  · simp only [serve, loadBinary_encodeProgram, loadProgram_of_le s hlen, and_self]
  · simp only [serve, loadBinary_encodeProgram, loadProgram_of_lt s hlen, and_self]
  · simp only [serve, State.loadBinary, decodeProgram_of_badLength hlen]

/-- Settles O54: each port is one field update. -/
theorem portsWriteOnePieceOfState : Obligations.PortsWriteOnePieceOfState := fun s =>
  ⟨fun c => ⟨s.bindInput c, s.bindOutput c, rfl, rfl, rfl, rfl,
      fun c' => ⟨s.inputBound_bindInput c c', s.outputBound_bindOutput c c'⟩⟩,
    rfl, fun _ => rfl, rfl⟩

/-- Settles O55: by induction on the steps, along the four ways a run goes on. -/
theorem runEndsHaltedOrFaulted : Obligations.RunEndsHaltedOrFaulted :=
  ⟨fun _ _ _ _ => runFor_ended_how, fun _ n _ _ _ h => runFor_ended_mono h n, fun k _ hs => runFor_of_halted hs k⟩

/-- Settles O56: the run's last step is the one that raises, and it changes no architectural state (O19). -/
theorem faultedRunLeavesTheStateBeforeTheFailingStep : Obligations.FaultedRunLeavesTheStateBeforeTheFailingStep := by
  intro k s e t h
  obtain ⟨j, u, hj, hrunning, hstep, he⟩ := runFor_faulted h
  obtain ⟨hcore, hevents, -, -⟩ := raisingStepChangesNoArchitecturalState u t e hstep he
  exact ⟨j, u, hj, hrunning, hstep, hcore, hevents.symm⟩

/-- Settles O57: every step leaves a state that meets the hypotheses again. -/
theorem jumpToItselfRunsForever : Obligations.JumpToItselfRunsForever := by
  intro s w h hd k
  induction k generalizing s with
  | zero => exact ⟨s, runFor_zero_of_not_halted h.not_halted⟩
  | succ k ih =>
    obtain ⟨t, ht⟩ := ih (s.setResult .ok) h hd
    exact ⟨t, (runFor_succ_of_ok h.not_halted (step_jump_to_itself h hd) rfl k).trans ht⟩

end Sys2Proof.Machine

/-! PROOFS. The assembler (spec/30_encoding.md section 5): the operands of each text form, and the label pass. -/

namespace Sys2Proof.Machine

/-! ## The operands of each text form (R97) -/

section
variable {labels : JumpMap} {line x y z : Text} {a b d : Byte}

theorem buildOperands_load {v : Word} (hv : parseImmediate x = .ok v) (hd : parseByte y = .ok d) :
    buildOperands labels line .load [x, y] = .ok (.load d v) := by
  simp only [buildOperands, hv, hd]; rfl

theorem buildOperands_input (hd : parseByte x = .ok d) (ha : parseByte y = .ok a) :
    buildOperands labels line .input [x, y] = .ok (.input d a) := by
  simp only [buildOperands, hd, ha]; rfl

theorem buildOperands_output (hd : parseByte x = .ok d) (ha : parseByte y = .ok a) :
    buildOperands labels line .output [x, y] = .ok (.output d a) := by
  simp only [buildOperands, hd, ha]; rfl

theorem buildOperands_binary (make : Byte → Byte → Byte → Instr) (ha : parseByte x = .ok a) (hb : parseByte y = .ok b)
    (hd : parseByte z = .ok d) : buildOperands labels line (.binary make) [x, y, z] = .ok (make d a b) := by
  simp only [buildOperands, ha, hb, hd]; rfl

theorem buildOperands_compare (ha : parseByte x = .ok a) (hb : parseByte y = .ok b) :
    buildOperands labels line .compare [x, y] = .ok (.compare a b) := by
  simp only [buildOperands, ha, hb]; rfl

theorem buildOperands_jump {k : Cond} {target : Word} (hk : parseCondition x = .ok k)
    (ht : parseLabel labels y = .ok target) : buildOperands labels line .jump [x, y] = .ok (.jump k target) := by
  simp only [buildOperands, hk, ht]; rfl

theorem buildOperands_logicalnot (ha : parseByte x = .ok a) (hd : parseByte y = .ok d) :
    buildOperands labels line .logicalnot [x, y] = .ok (.logicalnot d a) := by
  simp only [buildOperands, ha, hd]; rfl

end

/-- A label the jump map has resolves to its address as a target (R88, R96). -/
theorem parseLabel_of_lookup {labels : JumpMap} {token : Text} {address : Nat} (h : labels.lookup token = some address)
    (hle : address ≤ 32767) : parseLabel labels token = .ok (BitVec.ofNat 16 address) := by
  simp [parseLabel, h, targetOf, hle]

/-! ## The label pass (R87 to R89) -/

section
variable {line : SourceLine} {lines : List SourceLine} {address : Nat} {labels found : JumpMap}

/-- The label pass over a label: it is declared for the first time, with the address it stands at (R87, R89). -/
theorem labelPass_label (hl : isLabel line = true) (h : labelPass (line :: lines) address labels = .ok found) :
    labels.lookup line.text = none ∧ labelPass lines address (labels ++ [(line.text, address)]) = .ok found := by
  rw [labelPass, if_pos hl] at h
  split at h
  · cases h
  · next hnone => exact ⟨hnone, h⟩

/-- The label pass over an instruction line: the next line stands at the next address (R87). -/
theorem labelPass_instruction (hl : isLabel line = false) (h : labelPass (line :: lines) address labels = .ok found) :
    labelPass lines (address + 1) labels = .ok found := by
  rwa [labelPass, if_neg (by simp [hl])] at h

end

/-- The label pass keeps the addresses it has found. -/
theorem labelPass_keeps {lines : List SourceLine} {address n : Nat} {labels found : JumpMap} {key : Text}
    (h : labelPass lines address labels = .ok found) (hkey : labels.lookup key = some n) : found.lookup key = some n := by
  induction lines generalizing address labels with
  | nil => cases h; exact hkey
  | cons line lines ih =>
    cases hl : isLabel line with
    | true =>
      obtain ⟨-, h⟩ := labelPass_label hl h
      exact ih h (by rw [List.lookup_append, hkey, Option.some_or])
    | false => exact ih (labelPass_instruction hl h) hkey

/-- A label's address is that of the first line, plus the number of instruction lines before the label (R87). -/
theorem labelPass_lookup {before after : List SourceLine} {label : SourceLine} {address : Nat} {labels found : JumpMap}
    (hlabel : isLabel label = true) (h : labelPass (before ++ label :: after) address labels = .ok found) :
    found.lookup label.text = some (address + (instructionLines before).length) := by
  induction before generalizing address labels with
  | nil =>
    obtain ⟨hnone, h⟩ := labelPass_label hlabel h
    exact labelPass_keeps h (by simp [List.lookup_append, hnone, instructionLines])
  | cons line lines ih =>
    cases hl : isLabel line with
    | true =>
      obtain ⟨-, h⟩ := labelPass_label hl h
      rw [ih h]
      simp [instructionLines, hl]
    | false =>
      rw [ih (labelPass_instruction hl h)]
      simp only [instructionLines, List.filter_cons, hl, Bool.not_false, if_true, List.length_cons]
      congr 1
      omega

/-! ## The obligations -/

/-- Settles O59: the operands parse to the operands of the instruction, which `encode` puts into their slots. -/
theorem textOperandsGoToTheirSlots : Obligations.TextOperandsGoToTheirSlots := by
  intro labels line A B D a b d ha hb hd
  have hbinary := fun make =>
    congrArg (Except.map encode) (buildOperands_binary (labels := labels) (line := line) make ha hb hd)
  refine ⟨⟨.load, rfl, fun V v hv => congrArg (Except.map encode) (buildOperands_load hv hd)⟩,
    ⟨.input, rfl, congrArg (Except.map encode) (buildOperands_input hd ha)⟩,
    ⟨.output, rfl, congrArg (Except.map encode) (buildOperands_output hd ha)⟩, ?_,
    ⟨.compare, rfl, congrArg (Except.map encode) (buildOperands_compare ha hb)⟩,
    ⟨.jump, rfl, fun K L k address hk hL hle =>
      congrArg (Except.map encode) (buildOperands_jump hk (parseLabel_of_lookup hL hle))⟩,
    ⟨.logicalnot, rfl, congrArg (Except.map encode) (buildOperands_logicalnot ha hd)⟩, ⟨.halt, rfl, rfl⟩⟩
  simp only [List.forall_mem_cons, List.not_mem_nil, false_imp_iff, implies_true, and_true]
  exact ⟨⟨.binary .add, rfl, hbinary .add⟩, ⟨.binary .subtract, rfl, hbinary .subtract⟩,
    ⟨.binary .multiply, rfl, hbinary .multiply⟩, ⟨.binary .divide, rfl, hbinary .divide⟩,
    ⟨.binary .modulus, rfl, hbinary .modulus⟩, ⟨.binary .leftshift, rfl, hbinary .leftshift⟩,
    ⟨.binary .rightshift, rfl, hbinary .rightshift⟩, ⟨.binary .logicaland, rfl, hbinary .logicaland⟩,
    ⟨.binary .logicalor, rfl, hbinary .logicalor⟩, ⟨.binary .logicalxor, rfl, hbinary .logicalxor⟩⟩

/-- Settles O60: the label pass counts the instruction lines from 0. -/
theorem labelResolvesToTheNextInstruction : Obligations.LabelResolvesToTheNextInstruction := by
  intro before after label labels hlabel h
  rw [labelPass_lookup hlabel h, Nat.zero_add]

end Sys2Proof.Machine
